-- ==== Sys2Proof/Word.lean ====
section
/-! DEFINITION. The word types of the machine and the conversions between bytes, words and numbers
(spec 00_scope.md R5 and section 5.1). Every value is unsigned. -/

namespace Sys2Proof

/-- One byte of memory or of a device transfer. -/
abbrev Byte := BitVec 8

/-- A register value, an instruction word, a device pointer (R5). -/
abbrev Word := BitVec 16

/-- A 12-bit address: `pc`, `mp`, a call stack entry, the NNN field (R5). -/
abbrev Addr := BitVec 12

/-- A register number 0 to 15 (10_state.md R10). -/
abbrev Reg := Fin 16

/-- A device slot number 0 to 15 (45_device_bus.md R130). -/
abbrev Slot := Fin 16

end Sys2Proof
end

