-- ==== Sys2Proof/Syntax.lean ====
section
/-! DEFINITION. The 31 instructions, one constructor per row of the opcode map (spec 30_encoding.md
R55). A field that the manual uses as bits (NN as data or mask, NNN) is a bit vector; a register or
slot number is a `Fin 16`; a byte count or a shift count is a `Nat`, bounded by WellFormed. -/

namespace Sys2Proof

inductive Instr where
  /-- 0000, R74 -/
  | halt
  /-- 01EE, R75 -/
  | ret
  /-- 1NNN, R76 -/
  | goto (nnn : Addr)
  /-- 2NNN, R77 -/
  | call (nnn : Addr)
  /-- 3XNN, R85 -/
  | snec (x : Reg) (nn : Byte)
  /-- 4XNN, R86 -/
  | snuec (x : Reg) (nn : Byte)
  /-- 5XY0, R87 -/
  | sne (x y : Reg)
  /-- 6XNN, R91 -/
  | acr (x : Reg) (nn : Byte)
  /-- 7XNN, R92 -/
  | adc (x : Reg) (nn : Byte)
  /-- 8XY0, R93 -/
  | ar (x y : Reg)
  /-- 8XY1, R94 -/
  | or (x y : Reg)
  /-- 8XY2, R95 -/
  | and (x y : Reg)
  /-- 8XY3, R96 -/
  | xor (x y : Reg)
  /-- 8XY4, R97 -/
  | add (x y : Reg)
  /-- 8XY5, R98 -/
  | sub (x y : Reg)
  /-- 8XY6, R99: Y is a shift count, not a register -/
  | shr (x : Reg) (count : Nat)
  /-- 8XY7, R100 -/
  | rsub (x y : Reg)
  /-- 8XYE, R101: Y is a shift count, not a register -/
  | shl (x : Reg) (count : Nat)
  /-- 9XY0, R88 -/
  | snue (x y : Reg)
  /-- ANNN, R110 -/
  | smp (nnn : Addr)
  /-- BNNN, R78 -/
  | cpac (nnn : Addr)
  /-- CXNN, R102: NN is the mask of the draw -/
  | bar (x : Reg) (nn : Byte)
  /-- DXNN, R120: X is a slot, NN a byte count -/
  | write (x : Slot) (count : Nat)
  /-- EX00, R122: X is a slot -/
  | dps (x : Slot)
  /-- EX01, R123: X is a slot -/
  | dpg (x : Slot)
  /-- EX1C, R79 -/
  | callr (x : Reg)
  /-- EX1D, R111 -/
  | rmp (x : Reg)
  /-- EX1E, R112 -/
  | mpar (x : Reg)
  /-- EX55, R113 -/
  | spl (x : Reg)
  /-- EX65, R114: loads `x[0]` to `x[X]` -/
  | ld (x : Reg)
  /-- FXNN, R121: X is a slot, NN a byte count -/
  | read (x : Slot) (count : Nat)
deriving DecidableEq, Repr

end Sys2Proof
end

