-- ==== Sys2Proof/WellFormed.lean ====
section
/-! DEFINITION. Which instruction terms an encoding can hold (spec 30_encoding.md R53): a shift count
is a 4-bit constant and a byte count an 8-bit one. Every other field's type is its width, and no
field value inside a legal instruction is reserved (R57). -/

namespace Sys2Proof

/-- The fields fit their places in the word (R51, R53). -/
def Instr.wellFormed : Instr → Bool
  | .shr _ count => decide (count < 16)
  | .shl _ count => decide (count < 16)
  | .write _ count => decide (count < 256)
  | .read _ count => decide (count < 256)
  | .halt => true
  | .ret => true
  | .goto _ => true
  | .call _ => true
  | .snec _ _ => true
  | .snuec _ _ => true
  | .sne _ _ => true
  | .acr _ _ => true
  | .adc _ _ => true
  | .ar _ _ => true
  | .or _ _ => true
  | .and _ _ => true
  | .xor _ _ => true
  | .add _ _ => true
  | .sub _ _ => true
  | .rsub _ _ => true
  | .snue _ _ => true
  | .smp _ => true
  | .cpac _ => true
  | .bar _ _ => true
  | .dps _ => true
  | .dpg _ => true
  | .callr _ => true
  | .rmp _ => true
  | .mpar _ => true
  | .spl _ => true
  | .ld _ => true

end Sys2Proof
end

