-- ==== Sys2Proof/Decode.lean ====
section
/-! DEFINITION. The decoder of spec 30_encoding.md R54, total on words and on byte lists, and the
encoder written from the same map (R52, R55). Decoding reads no state and raises nothing (R61). -/

namespace Sys2Proof

/-! ## Fields (R51) -/

/-- The word made of the byte at the lower address and the byte after it (R50). -/
def joinBytes (hi lo : Byte) : Word := hi ++ lo

/-- The two bytes of a word in memory order, high byte first (R50). -/
def wordBytes (w : Word) : List Byte := [w.extractLsb' 8 8, w.extractLsb' 0 8]

/-- `P = w[15:12]`, the primary opcode. -/
def fieldP (w : Word) : BitVec 4 := w.extractLsb' 12 4

/-- `X = w[11:8]`, a register or slot number. -/
def fieldX (w : Word) : Fin 16 := (w.extractLsb' 8 4).toFin

/-- `Y = w[7:4]`, a register number or a shift count. -/
def fieldY (w : Word) : Fin 16 := (w.extractLsb' 4 4).toFin

/-- `Q = w[3:0]`, the secondary opcode of groups 5, 8 and 9. -/
def fieldQ (w : Word) : BitVec 4 := w.extractLsb' 0 4

/-- `NN = w[7:0]`, also the secondary opcode `RR` of group E. -/
def fieldNN (w : Word) : Byte := w.extractLsb' 0 8

/-- `NNN = w[11:0]`, an address. -/
def fieldNNN (w : Word) : Addr := w.extractLsb' 0 12

/-! ## Decoding (R54, R56) -/

/-- Why bytes are no instruction: the word matches no row of the map (R56), or there are fewer than
the two bytes of a word (R50). -/
inductive DecodeError where
  | illegalWord (w : Word)
  | tooShort
deriving DecidableEq, Repr

/-- The group `P = 8`, told apart by Q. -/
def decodeGroup8 (w : Word) : Except DecodeError Instr :=
  let x := fieldX w
  let y := fieldY w
  match (fieldQ w).toNat with
  | 0x0 => .ok (.ar x y)
  | 0x1 => .ok (.or x y)
  | 0x2 => .ok (.and x y)
  | 0x3 => .ok (.xor x y)
  | 0x4 => .ok (.add x y)
  | 0x5 => .ok (.sub x y)
  | 0x6 => .ok (.shr x y.val)
  | 0x7 => .ok (.rsub x y)
  | 0xE => .ok (.shl x y.val)
  | _ => .error (.illegalWord w)

/-- The group `P = 0xE`, told apart by the low byte RR. -/
def decodeGroupE (w : Word) : Except DecodeError Instr :=
  let x := fieldX w
  match (fieldNN w).toNat with
  | 0x00 => .ok (.dps x)
  | 0x01 => .ok (.dpg x)
  | 0x1C => .ok (.callr x)
  | 0x1D => .ok (.rmp x)
  | 0x1E => .ok (.mpar x)
  | 0x55 => .ok (.spl x)
  | 0x65 => .ok (.ld x)
  | _ => .error (.illegalWord w)

/-- The decoder of R54. `P` has no value above 0xF, so the last arm is never reached. -/
def decode (w : Word) : Except DecodeError Instr :=
  let x := fieldX w
  let y := fieldY w
  let nn := fieldNN w
  let nnn := fieldNNN w
  match (fieldP w).toNat with
  | 0x0 =>
    if w = 0x0000#16 then .ok .halt
    else if w = 0x01EE#16 then .ok .ret
    else .error (.illegalWord w)
  | 0x1 => .ok (.goto nnn)
  | 0x2 => .ok (.call nnn)
  | 0x3 => .ok (.snec x nn)
  | 0x4 => .ok (.snuec x nn)
  | 0x5 => if fieldQ w = 0#4 then .ok (.sne x y) else .error (.illegalWord w)
  | 0x6 => .ok (.acr x nn)
  | 0x7 => .ok (.adc x nn)
  | 0x8 => decodeGroup8 w
  | 0x9 => if fieldQ w = 0#4 then .ok (.snue x y) else .error (.illegalWord w)
  | 0xA => .ok (.smp nnn)
  | 0xB => .ok (.cpac nnn)
  | 0xC => .ok (.bar x nn)
  | 0xD => .ok (.write x nn.toNat)
  | 0xE => decodeGroupE w
  | 0xF => .ok (.read x nn.toNat)
  | _ => .error (.illegalWord w)

/-- Decoding of bytes in memory order: the instruction and the bytes after its word (R50, R58). -/
def decodeBytes : List Byte → Except DecodeError (Instr × List Byte)
  | hi :: lo :: rest =>
    match decode (joinBytes hi lo) with
    | .ok i => .ok (i, rest)
    | .error e => .error e
  | _ => .error .tooShort

/-! ## Encoding (R52, R55) -/

/-- A register or slot number, or a shift count, as a 4-bit field. -/
def nibble (n : Fin 16) : BitVec 4 := BitVec.ofFin n

/-- Format A: `P NNN`. -/
def formatA (p : BitVec 4) (nnn : Addr) : Word := p ++ nnn

/-- Format I: `P X NN`; format E is the same with the secondary opcode RR in the low byte. -/
def formatI (p : BitVec 4) (x : Fin 16) (nn : Byte) : Word := (p ++ nibble x : BitVec 8) ++ nn

/-- Format R: `P X Y Q`. -/
def formatR (p : BitVec 4) (x y : Fin 16) (q : BitVec 4) : Word :=
  (p ++ nibble x : BitVec 8) ++ (nibble y ++ q : BitVec 8)

/-- Format R with a shift count in the Y field. -/
def formatShift (p : BitVec 4) (x : Fin 16) (count : Nat) (q : BitVec 4) : Word :=
  (p ++ nibble x : BitVec 8) ++ (BitVec.ofNat 4 count ++ q : BitVec 8)

/-- The word of an instruction (R55). -/
def encode : Instr → Word
  | .halt => 0x0000
  | .ret => 0x01EE
  | .goto nnn => formatA 0x1 nnn
  | .call nnn => formatA 0x2 nnn
  | .snec x nn => formatI 0x3 x nn
  | .snuec x nn => formatI 0x4 x nn
  | .sne x y => formatR 0x5 x y 0x0
  | .acr x nn => formatI 0x6 x nn
  | .adc x nn => formatI 0x7 x nn
  | .ar x y => formatR 0x8 x y 0x0
  | .or x y => formatR 0x8 x y 0x1
  | .and x y => formatR 0x8 x y 0x2
  | .xor x y => formatR 0x8 x y 0x3
  | .add x y => formatR 0x8 x y 0x4
  | .sub x y => formatR 0x8 x y 0x5
  | .shr x count => formatShift 0x8 x count 0x6
  | .rsub x y => formatR 0x8 x y 0x7
  | .shl x count => formatShift 0x8 x count 0xE
  | .snue x y => formatR 0x9 x y 0x0
  | .smp nnn => formatA 0xA nnn
  | .cpac nnn => formatA 0xB nnn
  | .bar x nn => formatI 0xC x nn
  | .write x count => formatI 0xD x (BitVec.ofNat 8 count)
  | .dps x => formatI 0xE x 0x00
  | .dpg x => formatI 0xE x 0x01
  | .callr x => formatI 0xE x 0x1C
  | .rmp x => formatI 0xE x 0x1D
  | .mpar x => formatI 0xE x 0x1E
  | .spl x => formatI 0xE x 0x55
  | .ld x => formatI 0xE x 0x65
  | .read x count => formatI 0xF x (BitVec.ofNat 8 count)

/-- The bytes of an instruction in memory order (R50). -/
def encodeBytes (i : Instr) : List Byte := wordBytes (encode i)

/-! ## The opcode map as data (R55) -/

/-- One row of the opcode map: a word is the row's instruction exactly when its bits under `mask`
are those of `code` (the map's `match` column). -/
structure OpcodeRow where
  mnemonic : String
  code : Word
  mask : Word
deriving DecidableEq, Repr

/-- The word belongs to the row (R55). -/
def rowMatches (w : Word) (r : OpcodeRow) : Bool := decide (w &&& r.mask = r.code)

/-- The row of each instruction. -/
def opcodeRow : Instr → OpcodeRow
  | .halt => ⟨"HALT", 0x0000, 0xFFFF⟩
  | .ret => ⟨"RET", 0x01EE, 0xFFFF⟩
  | .goto _ => ⟨"GOTO", 0x1000, 0xF000⟩
  | .call _ => ⟨"CALL", 0x2000, 0xF000⟩
  | .snec _ _ => ⟨"SNEC", 0x3000, 0xF000⟩
  | .snuec _ _ => ⟨"SNUEC", 0x4000, 0xF000⟩
  | .sne _ _ => ⟨"SNE", 0x5000, 0xF00F⟩
  | .acr _ _ => ⟨"ACR", 0x6000, 0xF000⟩
  | .adc _ _ => ⟨"ADC", 0x7000, 0xF000⟩
  | .ar _ _ => ⟨"AR", 0x8000, 0xF00F⟩
  | .or _ _ => ⟨"OR", 0x8001, 0xF00F⟩
  | .and _ _ => ⟨"AND", 0x8002, 0xF00F⟩
  | .xor _ _ => ⟨"XOR", 0x8003, 0xF00F⟩
  | .add _ _ => ⟨"ADD", 0x8004, 0xF00F⟩
  | .sub _ _ => ⟨"SUB", 0x8005, 0xF00F⟩
  | .shr _ _ => ⟨"SHR", 0x8006, 0xF00F⟩
  | .rsub _ _ => ⟨"RSUB", 0x8007, 0xF00F⟩
  | .shl _ _ => ⟨"SHL", 0x800E, 0xF00F⟩
  | .snue _ _ => ⟨"SNUE", 0x9000, 0xF00F⟩
  | .smp _ => ⟨"SMP", 0xA000, 0xF000⟩
  | .cpac _ => ⟨"CPAC", 0xB000, 0xF000⟩
  | .bar _ _ => ⟨"BAR", 0xC000, 0xF000⟩
  | .write _ _ => ⟨"WRITE", 0xD000, 0xF000⟩
  | .dps _ => ⟨"DPS", 0xE000, 0xF0FF⟩
  | .dpg _ => ⟨"DPG", 0xE001, 0xF0FF⟩
  | .callr _ => ⟨"CALLR", 0xE01C, 0xF0FF⟩
  | .rmp _ => ⟨"RMP", 0xE01D, 0xF0FF⟩
  | .mpar _ => ⟨"MPAR", 0xE01E, 0xF0FF⟩
  | .spl _ => ⟨"SPL", 0xE055, 0xF0FF⟩
  | .ld _ => ⟨"LD", 0xE065, 0xF0FF⟩
  | .read _ _ => ⟨"READ", 0xF000, 0xF000⟩

/-- One instruction of each kind, in the order of the map: control, skips and the first registers. -/
def instrOfEachRow1 : List Instr :=
  [.halt, .ret, .goto 0, .call 0, .snec 0 0, .snuec 0 0, .sne 0 0, .acr 0 0, .adc 0 0]

/-- The group `P = 8`. -/
def instrOfEachRow2 : List Instr :=
  [.ar 0 0, .or 0 0, .and 0 0, .xor 0 0, .add 0 0, .sub 0 0, .shr 0 0, .rsub 0 0, .shl 0 0]

/-- The rest of the map. -/
def instrOfEachRow3 : List Instr :=
  [.snue 0 0, .smp 0, .cpac 0, .bar 0 0, .write 0 0, .dps 0, .dpg 0, .callr 0, .rmp 0, .mpar 0, .spl 0,
    .ld 0, .read 0 0]

/-- One instruction of each kind, in the order of the map. -/
def instrOfEachRow : List Instr := instrOfEachRow1 ++ instrOfEachRow2 ++ instrOfEachRow3

/-- The opcode map, 31 rows (R55). -/
def opcodeTable : List OpcodeRow := instrOfEachRow.map opcodeRow

/-! ## The host's entry -/

/-- The instruction the decoder reads from the bits `w`, of which the table gives the row `nbits`:
the word is laid out as memory holds it, high byte first. -/
def decodeTableWord (nbits w : Nat) : Option Instr :=
  match decodeBytes (wordBytes (BitVec.ofNat 16 (w % 2 ^ nbits))) with
  | .ok (i, _) => some i
  | .error _ => none

end Sys2Proof
end

