-- ==== Sys2Proof/Config.lean ====
section
/-! DEFINITION. The parameters of 00_scope.md R5 and R6: the fixed sizes, the constants the spec
chooses, and the open ones as opaque constants, about which nothing can be proved beyond their
type. -/

namespace Sys2Proof.Config

/-- Bytes in the address space `M` (R5, 10_state.md R19). -/
def memSize : Nat := 4096

/-- Bytes in a mem_ext or rom device (R5, 46_standard_devices.md R147, R151). -/
def deviceMemSize : Nat := 65536

/-- `MEM_FILL`: what a byte reads as that no image, store or transfer has given another value
(R6, R19; the same 0x00 fills mem_ext, R147, and pads a rom image, R151). -/
def memFill : Byte := 0x00

/-- `MP_RESET`: the memory pointer after reset (R6, R15). -/
def mpReset : Addr := 0x000

/-- `STACK_DEPTH`: the capacity of the call stack (R6, R18). -/
def stackDepth : Nat := 16

/-- `RAND`: the n-th draw of BAR, a free 8-bit input under no law (R6, 42_register_alu.md R105).
FREE VALUE, log entry 2. -/
opaque draw8 : Nat → Byte

/-- What one device operation gives back: the device's new state, a value, and the `fault` bit by
which it asks for the alert (45_device_bus.md R131). -/
structure Reply (σ α : Type) where
  state : σ
  value : α
  fault : Bool
deriving DecidableEq, Repr, Inhabited

/-- The state of the fp_arith device: the bank of 32-bit floats and the 16-bit pointer the spec names
(46_standard_devices.md R156), and a number that stands for whatever else the device holds.
DESIGN CHOICE (safe), log entry 3: any countable state fits. -/
structure FpState where
  bank : List (BitVec 32)
  ptr : Word
  hidden : Nat
deriving DecidableEq, Repr, Inhabited

/-- `FP_DEVICE`, its reset state (R157). FREE VALUE, log entry 3. -/
opaque fpReset : FpState
/-- `FP_DEVICE`, its write operation (R157). FREE VALUE, log entry 3. -/
opaque fpWrite : FpState → List Byte → Reply FpState Unit
/-- `FP_DEVICE`, its read operation before the bound of R131 is imposed (R157). FREE VALUE, log entry 3. -/
opaque fpRead : FpState → Nat → Reply FpState (List Byte)
/-- `FP_DEVICE`, its set_pointer operation (R157). FREE VALUE, log entry 3. -/
opaque fpSetPointer : FpState → Word → Reply FpState Unit
/-- `FP_DEVICE`, its get_pointer operation (R157). FREE VALUE, log entry 3. -/
opaque fpGetPointer : FpState → Reply FpState Word

/-- The state of a user-supplied device (45_device_bus.md R131): `model` says which of the user's
device types it is, `hidden` is its state as a number. DESIGN CHOICE (safe), log entry 4. -/
structure UserState where
  model : Nat
  hidden : Nat
deriving DecidableEq, Repr, Inhabited

/-- The reset state of a user-supplied device of the given type (R131). FREE VALUE, log entry 4. -/
opaque userReset : Nat → Nat
/-- The write operation of a user-supplied device (R131). FREE VALUE, log entry 4. -/
opaque userWrite : UserState → List Byte → Reply Nat Unit
/-- The read operation of a user-supplied device, before the bound of R131 is imposed.
FREE VALUE, log entry 4. -/
opaque userRead : UserState → Nat → Reply Nat (List Byte)
/-- The set_pointer operation of a user-supplied device (R131). FREE VALUE, log entry 4. -/
opaque userSetPointer : UserState → Word → Reply Nat Unit
/-- The get_pointer operation of a user-supplied device (R131). FREE VALUE, log entry 4. -/
opaque userGetPointer : UserState → Reply Nat Word

end Sys2Proof.Config
end

