-- ==== Sys2Proof/Machine/State.lean ====
section
/-! DEFINITION. The machine's state as plain data (spec 10_state.md R10 to R21), the reasons a step
can stop, and the state after reset. -/

namespace Sys2Proof.Machine

/-- The host's name for one byte at one address. -/
abbrev Cell := Host.Cell

/-- A byte memory as the cells that do not hold `Config.memFill`, addresses strictly rising. It
serves the address space `M` (R19) and the separate spaces of mem_ext and rom (R21, R22). -/
abbrev Memory := List Cell

/-- The canonical form above a lower bound: addresses rise strictly, stay below `size`, and no cell
holds what an unlisted address reads as. -/
def Memory.wfFrom (size : Nat) : Nat → Memory → Bool
  | _, [] => true
  | lo, (a, b) :: m =>
    decide (lo ≤ a) && decide (a < size) && decide (b ≠ Config.memFill) && Memory.wfFrom size (a + 1) m

/-- The canonical form of a memory of `size` bytes. -/
def Memory.wf (size : Nat) (m : Memory) : Bool := Memory.wfFrom size 0 m

/-- Whether the machine runs and, if not, why it stopped (10_state.md R17). -/
inductive Status where
  | running
  | halted
  | outOfBounds
deriving DecidableEq, Repr

/-! ## Devices (10_state.md R20, R21; 46_standard_devices.md) -/

/-- The console (R140): the format code (0 decimal, 1 hexadecimal), the input lines not yet consumed,
and the characters printed so far, oldest first. -/
structure Console where
  fmt : BitVec 1
  input : List (List Char)
  output : List Char
deriving DecidableEq, Repr

/-- The memory extension (R147). -/
structure MemExt where
  mem : Memory
  ptr : Word
deriving DecidableEq, Repr

/-- The rom (R151): `present` says whether a rom image was given at reset. -/
structure Rom where
  present : Bool
  mem : Memory
  ptr : Word
deriving DecidableEq, Repr

/-- A device in a slot: one of the four standard devices (R186) or a user-supplied one (R131). -/
inductive Device where
  | console (c : Console)
  | memExt (m : MemExt)
  | rom (r : Rom)
  | fpArith (f : Config.FpState)
  | user (u : Config.UserState)
deriving DecidableEq, Repr

/-- The state of the machine. -/
structure State where
  /-- `x[0..15]` (R10); `x[15]` is the flag register (R11, R13) -/
  regs : Vector Word 16
  /-- program counter (R14) -/
  pc : Addr
  /-- memory pointer (R15) -/
  mp : Addr
  /-- the sticky alert flag (R16) -/
  alert : Bool
  /-- run status (R17) -/
  status : Status
  /-- the call stack, last element on top; its length is `depth` (R18) -/
  stack : List Addr
  /-- the address space `M` (R19) -/
  mem : Memory
  /-- the slot table of the device bus (R20, R130) -/
  dev : Vector (Option Device) 16
  /-- how many draws BAR has taken: the MODEL's own index into `Config.draw8` (R105), log entry 2 -/
  draws : Nat
deriving DecidableEq, Repr

/-- Why a step stops with a fault. -/
inductive Fault where
  /-- Raised by `loadByte` and `storeByte` for an address of 4096 or above, which does not exist
  (20_memory.md R35 to R37, R39). Safe: the byte ranges of every instruction are cut to the valid
  window first, so no step answers it (log entry 11). -/
  | outsideMemory (a : Nat)
deriving DecidableEq, Repr

/-- Why the model gives no meaning. -/
inductive Refusal where
  /-- An instruction whose meaning is not written yet; no arm of `exec` answers it. Safe. -/
  | notModelled (mnemonic : String)
  /-- Raised by `resetWith` for a program image longer than 4096 bytes (70_reset_and_hazards.md
  R195). Safe. -/
  | imageTooLong (length : Nat)
  /-- Raised by `resetWith` for a rom image longer than 65536 bytes (R195). Safe. -/
  | romImageTooLong (length : Nat)
deriving DecidableEq, Repr

/-- The console in its reset state with the given input (R140). -/
def Console.reset (lines : List (List Char)) : Console := ⟨0, lines, []⟩

/-- The machine after reset (70_reset_and_hazards.md R190) with the empty image, no console input,
the default device map (R20: slot 0 the console, the rest empty), and every register 0x0000. The
register values are DESIGN CHOICE (unsafe), log entry 1: the spec gives none (R10). The parameters
are DESIGN CHOICE, log entry 6; `resetWith` in Reset.lean takes any others. -/
def State.reset : State where
  regs := Vector.replicate 16 0x0000
  pc := 0x000
  mp := Config.mpReset
  alert := false
  status := .running
  stack := []
  mem := []
  dev := (Vector.replicate 16 none).set 0 (some (.console (Console.reset [])))
  draws := 0

end Sys2Proof.Machine
end

