-- ==== Sys2Proof/Machine/Ops.lean ====
section
/-! DEFINITION. The shared operations: registers, bytes of memory, byte ranges, the entry action of
every exception, the sequential advance, the call stack, and the fetch (spec 00_scope.md
section 5.3). -/

namespace Sys2Proof.Machine

/-- What a meaning answers. -/
abbrev Result := Host.Outcome State Fault Refusal

/-- A state computed over checked byte accesses, as an outcome. -/
def Result.ofExcept : Except Fault State → Result
  | .ok s => .next s
  | .error f => .fault f

/-! ## Registers (10_state.md R10) -/

/-- `x[r]` -/
def readReg (r : Reg) (s : State) : Word := s.regs[r.val]

/-- `x[r] <- v` -/
def writeReg (r : Reg) (v : Word) (s : State) : State := { s with regs := s.regs.set r.val v }

/-- The flag register `x[15]` (R11). -/
def flagReg : Reg := 15

/-! ## Memory (10_state.md R19; canonical form: State.lean) -/

/-- The byte at an address. -/
def Memory.read : Memory → Nat → Byte
  | [], _ => Config.memFill
  | (k, b) :: m, a => if k = a then b else Memory.read m a

/-- Give an address a byte, keeping the canonical form: writing the fill value removes the cell. -/
def Memory.write : Memory → Nat → Byte → Memory
  | [], a, v => if v = Config.memFill then [] else [(a, v)]
  | (k, b) :: m, a, v =>
    if a < k then (if v = Config.memFill then (k, b) :: m else (a, v) :: (k, b) :: m)
    else if a = k then (if v = Config.memFill then m else (a, v) :: m)
    else (k, b) :: Memory.write m a v

/-- A memory that holds the bytes from an address on, and the fill elsewhere (R190, R151). -/
def Memory.ofBytes : Nat → List Byte → Memory
  | _, [] => []
  | a, b :: bs => if b = Config.memFill then Memory.ofBytes (a + 1) bs else (a, b) :: Memory.ofBytes (a + 1) bs

/-- Read `M[a]`; an address of 4096 or above does not exist (R39). -/
def loadByte (s : State) (a : Nat) : Except Fault Byte :=
  if a < Config.memSize then .ok (s.mem.read a) else .error (.outsideMemory a)

/-- Write `M[a]`; an address of 4096 or above does not exist (R39). -/
def storeByte (a : Nat) (b : Byte) (s : State) : Except Fault State :=
  if a < Config.memSize then .ok { s with mem := s.mem.write a b } else .error (.outsideMemory a)

/-- `MemBytes(a, n)`: the bytes `M[a]` to `M[a+n-1]` in ascending order (00_scope.md section 5.3). -/
def loadBytes (s : State) : Nat → Nat → Except Fault (List Byte)
  | _, 0 => .ok []
  | a, n + 1 =>
    match loadByte s a with
    | .error f => .error f
    | .ok b =>
      match loadBytes s (a + 1) n with
      | .error f => .error f
      | .ok bs => .ok (b :: bs)

/-- Write a list of bytes from an address on, in ascending order (20_memory.md R35). -/
def storeBytes : Nat → List Byte → State → Except Fault State
  | _, [], s => .ok s
  | a, b :: bs, s =>
    match storeByte a b s with
    | .error f => .error f
    | .ok s' => storeBytes (a + 1) bs s'

/-- `MemRead(a, 2)`: the big-endian word at an address (20_memory.md R30, R31). -/
def loadWord (s : State) (a : Nat) : Except Fault Word :=
  match loadByte s a with
  | .error f => .error f
  | .ok hi =>
    match loadByte s (a + 1) with
    | .error f => .error f
    | .ok lo => .ok (joinBytes hi lo)

/-! ## Exceptions (60_exceptions.md R170) -/

/-- The seven exceptions. The arguments are those of the spec's names; nothing records them. -/
inductive Exc where
  | illegalOpcode (w : Word)
  | stackOverflow
  | stackUnderflow
  | pcOutOfBounds
  | deviceAbsent (k : Slot)
  | deviceFault (k : Slot)
  | rangeTruncated (a : Addr) (n : Nat)
deriving DecidableEq, Repr

/-- Taking an exception: its entry action and nothing else (R170 to R178). No exception saves state
or transfers control, and there is no return from one (R180, R181); the stopping ones set `status`,
and the caller abandons the rest of its rule. -/
def raise (e : Exc) (s : State) : State :=
  match e with
  | .illegalOpcode _ => { s with alert := true }
  | .stackOverflow => { s with alert := true, status := .halted }
  | .stackUnderflow => { s with alert := true, status := .halted }
  | .pcOutOfBounds => { s with status := .outOfBounds }
  | .deviceAbsent _ => { s with alert := true }
  | .deviceFault _ => { s with alert := true }
  | .rangeTruncated _ _ => { s with alert := true }

/-! ## Program counter (40_cycle_and_control.md R72) -/

/-- `advance(k)`: the sum is taken in 13 bits, its low 12 bits go to `pc`, and a sum of 4096 or more
stops the machine. -/
def advance (k : Nat) (s : State) : State :=
  let t : BitVec 13 := s.pc.setWidth 13 + BitVec.ofNat 13 k
  let s' := { s with pc := t.extractLsb' 0 12 }
  if 4096 ≤ t.toNat then raise .pcOutOfBounds s' else s'

/-- `pc <- target`, for the instructions that transfer control. -/
def jump (target : Addr) (s : State) : State := { s with pc := target }

/-! ## Call stack (10_state.md R18) -/

/-- `push(v)`: the state with `v` on top, or the exception of a full stack. -/
def push (v : Addr) (s : State) : Except Exc State :=
  if s.stack.length = Config.stackDepth then .error .stackOverflow
  else .ok { s with stack := s.stack ++ [v] }

/-- `pop()`: the top and the state without it, or the exception of an empty stack. -/
def pop (s : State) : Except Exc (Addr × State) :=
  match s.stack.getLast? with
  | none => .error .stackUnderflow
  | some v => .ok (v, { s with stack := s.stack.dropLast })

/-! ## Byte ranges (20_memory.md R37) -/

/-- How many bytes of a range of `n` bytes at `mp` lie inside memory. -/
def window (mp : Addr) (n : Nat) : Nat := min n (Config.memSize - mp.toNat)

/-- The range of `n` bytes at `mp` passes the top of memory. -/
def passesTop (mp : Addr) (n : Nat) : Bool := decide (Config.memSize < mp.toNat + n)

/-- Raise `RangeTruncated` if the range of `n` bytes at `mp` passes the top of memory. -/
def checkRange (n : Nat) (s : State) : State :=
  if passesTop s.mp n then raise (.rangeTruncated s.mp n) s else s

/-! ## Fetch (20_memory.md R36) -/

/-- The word at `pc`, or nothing when `pc = 0xFFF`, where the second byte does not exist. -/
def fetch (s : State) : Except Fault (Option Word) :=
  if s.pc = 0xFFF#12 then .ok none
  else
    match loadWord s s.pc.toNat with
    | .error f => .error f
    | .ok w => .ok (some w)

end Sys2Proof.Machine
end

