-- ==== Sys2Proof/Machine/Operands.lean ====
section
/-! DEFINITION. The operand forms of spec 30_encoding.md R53 and the values the instructions compute
from them. No immediate is sign-extended, shifted or scaled. -/

namespace Sys2Proof.Machine

/-- NN as data: `zext_16(NN)` (R53). -/
def immWord (nn : Byte) : Word := nn.setWidth 16

/-- NN as the mask of a draw: the 8-bit AND, zero-extended (R53, 42_register_alu.md R102). -/
def maskedDraw (draw nn : Byte) : Word := (draw &&& nn).setWidth 16

/-- A 12-bit address as a register value: `zext_16(mp)` (43_memory_pointer.md R111). -/
def addrWord (a : Addr) : Word := a.setWidth 16

/-- The low 12 bits of a register: `rX & 0xFFF` (40_cycle_and_control.md R79). -/
def lowAddr (v : Word) : Addr := v.extractLsb' 0 12

/-- A 12-bit address plus a 16-bit register, in 17 bits, reduced modulo 4096: the target of CPAC
(R78) and the new `mp` of MPAR (43_memory_pointer.md R112). -/
def addrPlusWord (a : Addr) (v : Word) : Addr :=
  (v.setWidth 17 + a.setWidth 17 : BitVec 17).extractLsb' 0 12

/-- The return address of a call: `(pc + 2) mod 4096` (R77). -/
def returnAddress (pc : Addr) : Addr := (pc.setWidth 13 + 2 : BitVec 13).extractLsb' 0 12

/-- `hi(v)`, the byte stored at the lower address (20_memory.md R30). -/
def hiByte (v : Word) : Byte := v.extractLsb' 8 8

/-- `lo(v)`, the byte stored at the higher address (20_memory.md R30). -/
def loByte (v : Word) : Byte := v.extractLsb' 0 8

/-- The 17-bit sum of ADD (42_register_alu.md R97). -/
def sum17 (a b : Word) : BitVec 17 := a.setWidth 17 + b.setWidth 17

/-- The block of registers LD loads: `x[0]` to `x[X]` in ascending order (43_memory_pointer.md R114). -/
def registersUpTo (x : Reg) : List Reg := (List.finRange 16).filter (fun k => k ≤ x)

end Sys2Proof.Machine
end

