-- ==== Sys2Proof/Machine/Flags.lean ====
section
/-! DEFINITION. The flag computations of spec 42_register_alu.md R90 and the one write of the flag
register, which follows the result write (R103). -/

namespace Sys2Proof.Machine

/-- ADD: the carry out, bit 16 of the 17-bit sum (R97). -/
def carryFlag (a b : Word) : Bool := (sum17 a b).getLsbD 16

/-- SUB and RSUB: 1 when `minuend - subtrahend` needs no borrow (R98, R100). -/
def noBorrowFlag (minuend subtrahend : Word) : Bool := decide (subtrahend.toNat ≤ minuend.toNat)

/-- SHR: bit `count` of the old value, the one that becomes bit 0 of the result (R99). -/
def shrFlag (a : Word) (count : Nat) : Bool := a.getLsbD count

/-- SHL: bit `16 - count` of the old value, the last one shifted out; 0 for a count of 0 (R101). -/
def shlFlag (a : Word) (count : Nat) : Bool := if count = 0 then false else a.getLsbD (16 - count)

/-- A flag as the value of `x[15]`: exactly 0 or 1 (10_state.md R13). -/
def flagWord (f : Bool) : Word := (BitVec.ofBool f).setWidth 16

/-- The flag write: `x[15] <- flag`. -/
def setFlag (f : Bool) (s : State) : State := writeReg flagReg (flagWord f) s

/-- Result first, flag last: with X = 0xF the flag replaces the result (R103). -/
def writeResultThenFlag (x : Reg) (v : Word) (f : Bool) (s : State) : State := setFlag f (writeReg x v s)

end Sys2Proof.Machine
end

