-- ==== Sys2Proof/Machine/Alu.lean ====
section
/-! DEFINITION. ACR, ADC, AR, OR, AND, XOR, ADD, SUB, SHR, RSUB, SHL, BAR (spec 42_register_alu.md
R91 to R105). Operands are read before anything is written (R104); each ends with `advance(2)`. -/

namespace Sys2Proof.Machine

/-- Write a result and advance: the instructions without a flag. -/
def finish (x : Reg) (v : Word) (s : State) : Result := .next (advance 2 (writeReg x v s))

/-- Write a result, then the flag, and advance: the instructions with one (R103). -/
def finishWithFlag (x : Reg) (v : Word) (f : Bool) (s : State) : Result :=
  .next (advance 2 (writeResultThenFlag x v f s))

/-- R91. -/
def execAcr (x : Reg) (nn : Byte) (s : State) : Result := finish x (immWord nn) s

/-- R92: the sum wraps and no flag is written. -/
def execAdc (x : Reg) (nn : Byte) (s : State) : Result := finish x (readReg x s + immWord nn) s

/-- R93. -/
def execAr (x y : Reg) (s : State) : Result := finish x (readReg y s) s

/-- R94. -/
def execOr (x y : Reg) (s : State) : Result := finish x (readReg x s ||| readReg y s) s

/-- R95. -/
def execAnd (x y : Reg) (s : State) : Result := finish x (readReg x s &&& readReg y s) s

/-- R96. -/
def execXor (x y : Reg) (s : State) : Result := finish x (readReg x s ^^^ readReg y s) s

/-- R97: result and carry from the 17-bit sum. -/
def execAdd (x y : Reg) (s : State) : Result :=
  finishWithFlag x ((sum17 (readReg x s) (readReg y s)).extractLsb' 0 16)
    (carryFlag (readReg x s) (readReg y s)) s

/-- R98: the flag is 1 when there is no borrow. -/
def execSub (x y : Reg) (s : State) : Result :=
  finishWithFlag x (readReg x s - readReg y s) (noBorrowFlag (readReg x s) (readReg y s)) s

/-- R99: a logical shift by a constant. -/
def execShr (x : Reg) (count : Nat) (s : State) : Result :=
  finishWithFlag x (readReg x s >>> count) (shrFlag (readReg x s) count) s

/-- R100: SUB with the operands exchanged. -/
def execRsub (x y : Reg) (s : State) : Result :=
  finishWithFlag x (readReg y s - readReg x s) (noBorrowFlag (readReg y s) (readReg x s)) s

/-- R101: a shift by a constant. -/
def execShl (x : Reg) (count : Nat) (s : State) : Result :=
  finishWithFlag x (readReg x s <<< count) (shlFlag (readReg x s) count) s

/-- R102 for a given draw. -/
def barWithDraw (draw : Byte) (x : Reg) (nn : Byte) (s : State) : Result := finish x (maskedDraw draw nn) s

/-- R102: the draw is the next free value (R105), log entry 2. -/
def execBar (x : Reg) (nn : Byte) (s : State) : Result :=
  barWithDraw (Config.draw8 s.draws) x nn { s with draws := s.draws + 1 }

end Sys2Proof.Machine
end

