-- ==== Sys2Proof/Machine/Control.lean ====
section
/-! DEFINITION. HALT, RET, GOTO, CALL, CPAC, CALLR (spec 40_cycle_and_control.md R74 to R79) and the
effect of an illegal word (60_exceptions.md R172). -/

namespace Sys2Proof.Machine

/-- R74: `pc` keeps the address of the HALT. -/
def execHalt (s : State) : Result := .next { s with status := .halted }

/-- R75: an empty stack abandons the instruction (R174). -/
def execRet (s : State) : Result :=
  match pop s with
  | .error e => .next (raise e s)
  | .ok (t, s') => .next (jump t s')

/-- R76. -/
def execGoto (nnn : Addr) (s : State) : Result := .next (jump nnn s)

/-- The part CALL and CALLR share: push the return address, then transfer; a full stack abandons the
instruction (R77, R79, R173). -/
def callTo (target : Addr) (s : State) : Result :=
  match push (returnAddress s.pc) s with
  | .error e => .next (raise e s)
  | .ok s' => .next (jump target s')

/-- R77. -/
def execCall (nnn : Addr) (s : State) : Result := callTo nnn s

/-- R78: all 16 bits of `x[0]` enter the sum. -/
def execCpac (nnn : Addr) (s : State) : Result := .next (jump (addrPlusWord nnn (readReg 0 s)) s)

/-- R79: the upper four bits of `x[X]` are ignored. -/
def execCallr (x : Reg) (s : State) : Result := callTo (lowAddr (readReg x s)) s

/-- R172: the alert, then the advance over the word. -/
def execIllegal (w : Word) (s : State) : Result := .next (advance 2 (raise (.illegalOpcode w) s))

end Sys2Proof.Machine
end

