-- ==== Sys2Proof/Machine/Text.lean ====
section
/-! DEFINITION. Numbers as bytes and as the console's text (spec 46_standard_devices.md R141 to
R143). -/

namespace Sys2Proof.Machine

/-- The big-endian value of a byte list; 0 for the empty list (R141). -/
def bytesToNat (bs : List Byte) : Nat := bs.foldl (fun v b => v * 256 + b.toNat) 0

/-- The `n` bytes of `v mod 256^n`, most significant first (R143). -/
def natToBytes : Nat → Nat → List Byte
  | 0, _ => []
  | n + 1, v => BitVec.ofNat 8 (v / 256 ^ n) :: natToBytes n v

/-- The character of a digit below 16, upper case (R142). -/
def digitChar (d : Nat) : Char := if d < 10 then Char.ofNat (48 + d) else Char.ofNat (55 + d)

/-- The decimal digits of a number, most significant first, no leading zero, `0` for zero. The first
argument bounds their number. -/
def decimalDigits : Nat → Nat → List Char
  | 0, _ => []
  | k + 1, v => if v < 10 then [digitChar v] else decimalDigits k (v / 10) ++ [digitChar (v % 10)]

/-- What the console prints for a byte list in format 0 (R141). Three digits for each byte are
enough, and one for the empty list. -/
def decimalText (bs : List Byte) : List Char := decimalDigits (3 * bs.length + 1) (bytesToNat bs)

/-- What the console prints for a byte list in format 1: two digits for each byte (R142). -/
def hexText (bs : List Byte) : List Char :=
  bs.flatMap (fun b => [digitChar (b.toNat / 16), digitChar (b.toNat % 16)])

/-- White space around a token. DESIGN CHOICE (unsafe), log entry 7: space, tab, line feed, vertical
tab, form feed and carriage return. -/
def isBlank (c : Char) : Bool := c.toNat == 32 || (decide (9 ≤ c.toNat) && decide (c.toNat ≤ 13))

/-- The token of an input line: the line without leading and trailing white space (R143). -/
def token (line : List Char) : List Char :=
  ((line.dropWhile isBlank).reverse.dropWhile isBlank).reverse

/-- The value of a digit character in base 10 or 16; letters in either case, base 16 only (R143). -/
def digitValue (base : Nat) (c : Char) : Option Nat :=
  let n := c.toNat
  if 48 ≤ n ∧ n ≤ 57 then some (n - 48)
  else if base = 16 ∧ 97 ≤ n ∧ n ≤ 102 then some (n - 87)
  else if base = 16 ∧ 65 ≤ n ∧ n ≤ 70 then some (n - 55)
  else none

/-- The value of a digit string that continues a number already read. -/
def parseDigits (base : Nat) : Nat → List Char → Option Nat
  | v, [] => some v
  | v, c :: cs =>
    match digitValue base c with
    | none => none
    | some d => parseDigits base (v * base + d) cs

/-- The value of a token: one or more digits of the base and nothing else (R143). -/
def parseToken (base : Nat) (t : List Char) : Option Nat := if t = [] then none else parseDigits base 0 t

end Sys2Proof.Machine
end

