-- ==== Sys2Proof/Machine/Devices.lean ====
section
/-! DEFINITION. The four operations of every device (spec 45_device_bus.md R131) for the standard
devices of 46_standard_devices.md and for a user-supplied device. An operation sees only the device's
state and its arguments. -/

namespace Sys2Proof.Machine

/-- What a device operation gives back (R131). -/
abbrev Reply := Config.Reply

/-! ## console (R140 to R145) -/

/-- The base of the format code: 0 decimal, 1 hexadecimal (R140). -/
def consoleBase (c : Console) : Nat := if c.fmt = 0#1 then 10 else 16

/-- R141, R142: the text is appended; no write fails. -/
def consoleWrite (c : Console) (bs : List Byte) : Reply Console Unit :=
  { state := { c with output := c.output ++ (if c.fmt = 0#1 then decimalText bs else hexText bs) },
    value := (), fault := false }

/-- R143: the next line is consumed even if its token does not parse; no line left, or no parse, is a
failing read of zero bytes. -/
def consoleRead (c : Console) (n : Nat) : Reply Console (List Byte) :=
  match c.input with
  | [] => { state := c, value := [], fault := true }
  | line :: rest =>
    match parseToken (consoleBase c) (token line) with
    | none => { state := { c with input := rest }, value := [], fault := true }
    | some v => { state := { c with input := rest }, value := natToBytes n v, fault := false }

/-- R144: `fmt <- v[0]`. -/
def consoleSetPointer (c : Console) (v : Word) : Reply Console Unit :=
  { state := { c with fmt := v.extractLsb' 0 1 }, value := (), fault := false }

/-- R145: `zext_16(fmt)`. -/
def consoleGetPointer (c : Console) : Reply Console Word :=
  { state := c, value := c.fmt.setWidth 16, fault := false }

/-! ## mem_ext (R147 to R150) -/

/-- R148: copy the bytes in order, the pointer wrapping modulo 65536. -/
def memExtStore : List Byte → MemExt → MemExt
  | [], m => m
  | b :: bs, m => memExtStore bs { mem := m.mem.write m.ptr.toNat b, ptr := m.ptr + 1 }

/-- The `n` bytes from a device pointer on, the pointer wrapping modulo 65536 (R149). -/
def deviceBytes (mem : Memory) : Word → Nat → List Byte
  | _, 0 => []
  | ptr, n + 1 => mem.read ptr.toNat :: deviceBytes mem (ptr + 1) n

/-- R148. -/
def memExtWrite (m : MemExt) (bs : List Byte) : Reply MemExt Unit :=
  { state := memExtStore bs m, value := (), fault := false }

/-- R149: always exactly `n` bytes. -/
def memExtRead (m : MemExt) (n : Nat) : Reply MemExt (List Byte) :=
  { state := { m with ptr := m.ptr + BitVec.ofNat 16 n }, value := deviceBytes m.mem m.ptr n, fault := false }

/-- R150. -/
def memExtSetPointer (m : MemExt) (v : Word) : Reply MemExt Unit :=
  { state := { m with ptr := v }, value := (), fault := false }

/-- R150. -/
def memExtGetPointer (m : MemExt) : Reply MemExt Word := { state := m, value := m.ptr, fault := false }

/-! ## rom (R151 to R154) -/

/-- R153: a write changes nothing and fails, for every byte list. -/
def romWrite (r : Rom) (_ : List Byte) : Reply Rom Unit := { state := r, value := (), fault := true }

/-- R152: as mem_ext when an image is present, a failing read of zero bytes otherwise. -/
def romRead (r : Rom) (n : Nat) : Reply Rom (List Byte) :=
  if r.present then
    { state := { r with ptr := r.ptr + BitVec.ofNat 16 n }, value := deviceBytes r.mem r.ptr n, fault := false }
  else { state := r, value := [], fault := true }

/-- R154. -/
def romSetPointer (r : Rom) (v : Word) : Reply Rom Unit :=
  { state := { r with ptr := v }, value := (), fault := false }

/-- R154. -/
def romGetPointer (r : Rom) : Reply Rom Word := { state := r, value := r.ptr, fault := false }

/-! ## The contract's bound on a read (R131) -/

/-- A read returns at most the `n` bytes asked for, and none on a fault. DEDUCED (safe), log entry 5:
every device that meets the contract is unchanged by this. -/
def boundRead {σ : Type} (n : Nat) (r : Reply σ (List Byte)) : Reply σ (List Byte) :=
  { r with value := if r.fault then [] else r.value.take n }

/-! ## fp_arith (R156 to R158) -/

/-- Any instance of the contract (R157). -/
def fpWrite (f : Config.FpState) (bs : List Byte) : Reply Config.FpState Unit := Config.fpWrite f bs

/-- Any instance of the contract (R157), within its bound. -/
def fpRead (f : Config.FpState) (n : Nat) : Reply Config.FpState (List Byte) := boundRead n (Config.fpRead f n)

/-- Any instance of the contract (R157). -/
def fpSetPointer (f : Config.FpState) (v : Word) : Reply Config.FpState Unit := Config.fpSetPointer f v

/-- Any instance of the contract (R157). -/
def fpGetPointer (f : Config.FpState) : Reply Config.FpState Word := Config.fpGetPointer f

/-- The four bytes of a float on the bus: bits 31 to 24 first (R157, R158). -/
def floatBytes (f : BitVec 32) : List Byte := natToBytes 4 f.toNat

/-- The float whose bytes, most significant first, are the list (R157). -/
def floatOfBytes (bs : List Byte) : BitVec 32 := BitVec.ofNat 32 (bytesToNat bs)

/-- binary32: the sign, bit 31 (R158). -/
def floatSign (f : BitVec 32) : Bool := f.getLsbD 31

/-- binary32: the biased exponent, bits 30 to 23, bias 127 (R158). -/
def floatExponent (f : BitVec 32) : BitVec 8 := f.extractLsb' 23 8

/-- binary32: the fraction, bits 22 to 0 (R158). -/
def floatFraction (f : BitVec 32) : BitVec 23 := f.extractLsb' 0 23

/-! ## user-supplied device (R131) -/

/-- Put a user-supplied device's new state back beside its type. -/
def userReply {α : Type} (u : Config.UserState) (r : Reply Nat α) : Reply Config.UserState α :=
  { state := { u with hidden := r.state }, value := r.value, fault := r.fault }

/-- Any instance of the contract (R131). -/
def userWrite (u : Config.UserState) (bs : List Byte) : Reply Config.UserState Unit :=
  userReply u (Config.userWrite u bs)

/-- Any instance of the contract (R131), within its bound. -/
def userRead (u : Config.UserState) (n : Nat) : Reply Config.UserState (List Byte) :=
  boundRead n (userReply u (Config.userRead u n))

/-- Any instance of the contract (R131). -/
def userSetPointer (u : Config.UserState) (v : Word) : Reply Config.UserState Unit :=
  userReply u (Config.userSetPointer u v)

/-- Any instance of the contract (R131). -/
def userGetPointer (u : Config.UserState) : Reply Config.UserState Word :=
  userReply u (Config.userGetPointer u)

/-! ## The operations of whatever device stands in a slot -/

/-- A reply about one kind of device as a reply about a device. -/
def liftReply {σ α : Type} (wrap : σ → Device) (r : Reply σ α) : Reply Device α :=
  { state := wrap r.state, value := r.value, fault := r.fault }

/-- `write(bytes)` (R131) -/
def deviceWrite (d : Device) (bs : List Byte) : Reply Device Unit :=
  match d with
  | .console c => liftReply .console (consoleWrite c bs)
  | .memExt m => liftReply .memExt (memExtWrite m bs)
  | .rom r => liftReply .rom (romWrite r bs)
  | .fpArith f => liftReply .fpArith (fpWrite f bs)
  | .user u => liftReply .user (userWrite u bs)

/-- `read(n)` (R131) -/
def deviceRead (d : Device) (n : Nat) : Reply Device (List Byte) :=
  match d with
  | .console c => liftReply .console (consoleRead c n)
  | .memExt m => liftReply .memExt (memExtRead m n)
  | .rom r => liftReply .rom (romRead r n)
  | .fpArith f => liftReply .fpArith (fpRead f n)
  | .user u => liftReply .user (userRead u n)

/-- `set_pointer(v)` (R131) -/
def deviceSetPointer (d : Device) (v : Word) : Reply Device Unit :=
  match d with
  | .console c => liftReply .console (consoleSetPointer c v)
  | .memExt m => liftReply .memExt (memExtSetPointer m v)
  | .rom r => liftReply .rom (romSetPointer r v)
  | .fpArith f => liftReply .fpArith (fpSetPointer f v)
  | .user u => liftReply .user (userSetPointer u v)

/-- `get_pointer()` (R131) -/
def deviceGetPointer (d : Device) : Reply Device Word :=
  match d with
  | .console c => liftReply .console (consoleGetPointer c)
  | .memExt m => liftReply .memExt (memExtGetPointer m)
  | .rom r => liftReply .rom (romGetPointer r)
  | .fpArith f => liftReply .fpArith (fpGetPointer f)
  | .user u => liftReply .user (userGetPointer u)

end Sys2Proof.Machine
end

