-- ==== Sys2Proof/Machine/Bus.lean ====
section
/-! DEFINITION. The device bus router: the slot table and the four routed operations (spec
45_device_bus.md R130, R133 to R137). -/

namespace Sys2Proof.Machine

/-- `Dev[k]` (R130) -/
def readSlot (k : Slot) (s : State) : Option Device := s.dev[k.val]

/-- Put back the state of the device in a slot. -/
def putDevice (k : Slot) (d : Device) (s : State) : State := { s with dev := s.dev.set k.val (some d) }

/-- Put back the device's new state, and raise `DeviceFault` if it asked for the alert (R177). -/
def settle {α : Type} (k : Slot) (r : Reply Device α) (s : State) : State :=
  if r.fault then raise (.deviceFault k) (putDevice k r.state s) else putDevice k r.state s

/-- `bus_write(k, bs)` (R133) -/
def busWrite (k : Slot) (bs : List Byte) (s : State) : State :=
  match readSlot k s with
  | none => raise (.deviceAbsent k) s
  | some d => settle k (deviceWrite d bs) s

/-- `bus_read(k, n)` (R134): the state and the bytes, none from an empty slot. -/
def busRead (k : Slot) (n : Nat) (s : State) : State × List Byte :=
  match readSlot k s with
  | none => (raise (.deviceAbsent k) s, [])
  | some d => (settle k (deviceRead d n) s, (deviceRead d n).value)

/-- `bus_set_pointer(k, v)` (R135) -/
def busSetPointer (k : Slot) (v : Word) (s : State) : State :=
  match readSlot k s with
  | none => raise (.deviceAbsent k) s
  | some d => settle k (deviceSetPointer d v) s

/-- `bus_get_pointer(k)` (R136): the state and the pointer, none from an empty slot. -/
def busGetPointer (k : Slot) (s : State) : State × Option Word :=
  match readSlot k s with
  | none => (raise (.deviceAbsent k) s, none)
  | some d => (settle k (deviceGetPointer d) s, some (deviceGetPointer d).value)

end Sys2Proof.Machine
end

