-- ==== Sys2Proof/Machine/DeviceInstr.lean ====
section
/-! DEFINITION. WRITE, READ, DPS, DPG (spec 44_device_instructions.md R120 to R124). The first operand
is a slot number (R124). -/

namespace Sys2Proof.Machine

/-- R120: the bytes of the valid window go to the device, lowest address first. -/
def execWrite (x : Slot) (count : Nat) (s : State) : Result :=
  match loadBytes s s.mp.toNat (window s.mp count) with
  | .error f => .fault f
  | .ok bs => .next (advance 2 (busWrite x bs (checkRange count s)))

/-- R121: the device is asked for the bytes of the valid window, and those it returns are stored from
`mp` upward. -/
def execRead (x : Slot) (count : Nat) (s : State) : Result :=
  match busRead x (window s.mp count) (checkRange count s) with
  | (s1, bs) =>
    match storeBytes s.mp.toNat bs s1 with
    | .error f => .fault f
    | .ok s2 => .next (advance 2 s2)

/-- R122: the whole of `x[15]` goes to the device. -/
def execDps (x : Slot) (s : State) : Result := .next (advance 2 (busSetPointer x (readReg flagReg s) s))

/-- R123: `x[15]` receives the pointer; an empty slot leaves it. -/
def execDpg (x : Slot) (s : State) : Result :=
  match busGetPointer x s with
  | (s1, none) => .next (advance 2 s1)
  | (s1, some v) => .next (advance 2 (writeReg flagReg v s1))

end Sys2Proof.Machine
end

