-- ==== Sys2Proof/Machine/MemoryPointer.lean ====
section
/-! DEFINITION. SMP, RMP, MPAR, SPL, LD (spec 43_memory_pointer.md R110 to R115). -/

namespace Sys2Proof.Machine

/-- R110. -/
def execSmp (nnn : Addr) (s : State) : Result := .next (advance 2 { s with mp := nnn })

/-- R111. -/
def execRmp (x : Reg) (s : State) : Result := .next (advance 2 (writeReg x (addrWord s.mp) s))

/-- R112: all 16 bits of `x[X]` enter the sum. -/
def execMpar (x : Reg) (s : State) : Result :=
  .next (advance 2 { s with mp := addrPlusWord s.mp (readReg x s) })

/-- The bytes of SPL that lie inside memory: both, or the high one alone at `mp = 0xFFF` (R113). -/
def splBytes (mp : Addr) (v : Word) : List Byte := [hiByte v, loByte v].take (window mp 2)

/-- R113: a range that passes the top raises the alert and is cut (R37). -/
def execSpl (x : Reg) (s : State) : Result :=
  match storeBytes s.mp.toNat (splBytes s.mp (readReg x s)) (checkRange 2 s) with
  | .error f => .fault f
  | .ok s' => .next (advance 2 s')

/-- One turn of LD's loop: `x[k]` gets its word if both bytes lie below 4096, and keeps its value
otherwise (R114). -/
def loadRegister (k : Reg) (s : State) : Except Fault State :=
  if s.mp.toNat + 2 * k.val + 2 ≤ Config.memSize then
    match loadWord s (s.mp.toNat + 2 * k.val) with
    | .error f => .error f
    | .ok w => .ok (writeReg k w s)
  else .ok s

/-- LD's loop over a list of registers. -/
def loadRegisters : List Reg → State → Except Fault State
  | [], s => .ok s
  | k :: ks, s =>
    match loadRegister k s with
    | .error f => .error f
    | .ok s' => loadRegisters ks s'

/-- R114: `x[0]` to `x[X]` from the `2(X+1)` bytes at `mp`. -/
def execLd (x : Reg) (s : State) : Result :=
  match loadRegisters (registersUpTo x) (checkRange (2 * (x.val + 1)) s) with
  | .error f => .fault f
  | .ok s' => .next (advance 2 s')

end Sys2Proof.Machine
end

