-- ==== Sys2Proof/Machine/Skips.lean ====
section
/-! DEFINITION. SNEC, SNUEC, SNE, SNUE (spec 41_skips.md R85 to R89). -/

namespace Sys2Proof.Machine

/-- A skip: advance by 4 when taken, by 2 when not, and nothing else (R89). -/
def skipWhen (taken : Bool) (s : State) : State := if taken then advance 4 s else advance 2 s

/-- R85: the whole register against the zero-extended constant. -/
def execSnec (x : Reg) (nn : Byte) (s : State) : Result :=
  .next (skipWhen (decide (readReg x s = immWord nn)) s)

/-- R86. -/
def execSnuec (x : Reg) (nn : Byte) (s : State) : Result :=
  .next (skipWhen (decide (readReg x s ≠ immWord nn)) s)

/-- R87. -/
def execSne (x y : Reg) (s : State) : Result := .next (skipWhen (decide (readReg x s = readReg y s)) s)

/-- R88. -/
def execSnue (x y : Reg) (s : State) : Result := .next (skipWhen (decide (readReg x s ≠ readReg y s)) s)

end Sys2Proof.Machine
end

