-- ==== Sys2Proof/Machine/Dispatch.lean ====
section
/-! DEFINITION. Dispatch: the meaning of each instruction (spec 40_cycle_and_control.md R73). -/

namespace Sys2Proof.Machine

/-- `Execute(i)` (R73). It does not test `status`; the instruction cycle does (R70). -/
def exec (i : Instr) (s : State) : Host.Outcome State Fault Refusal :=
  match i with
  | .halt => Sys2Proof.Machine.execHalt s
  | .ret => Sys2Proof.Machine.execRet s
  | .goto nnn => Sys2Proof.Machine.execGoto nnn s
  | .call nnn => Sys2Proof.Machine.execCall nnn s
  | .snec x nn => Sys2Proof.Machine.execSnec x nn s
  | .snuec x nn => Sys2Proof.Machine.execSnuec x nn s
  | .sne x y => Sys2Proof.Machine.execSne x y s
  | .acr x nn => Sys2Proof.Machine.execAcr x nn s
  | .adc x nn => Sys2Proof.Machine.execAdc x nn s
  | .ar x y => Sys2Proof.Machine.execAr x y s
  | .or x y => Sys2Proof.Machine.execOr x y s
  | .and x y => Sys2Proof.Machine.execAnd x y s
  | .xor x y => Sys2Proof.Machine.execXor x y s
  | .add x y => Sys2Proof.Machine.execAdd x y s
  | .sub x y => Sys2Proof.Machine.execSub x y s
  | .shr x count => Sys2Proof.Machine.execShr x count s
  | .rsub x y => Sys2Proof.Machine.execRsub x y s
  | .shl x count => Sys2Proof.Machine.execShl x count s
  | .snue x y => Sys2Proof.Machine.execSnue x y s
  | .smp nnn => Sys2Proof.Machine.execSmp nnn s
  | .cpac nnn => Sys2Proof.Machine.execCpac nnn s
  | .bar x nn => Sys2Proof.Machine.execBar x nn s
  | .write x count => Sys2Proof.Machine.execWrite x count s
  | .dps x => Sys2Proof.Machine.execDps x s
  | .dpg x => Sys2Proof.Machine.execDpg x s
  | .callr x => Sys2Proof.Machine.execCallr x s
  | .rmp x => Sys2Proof.Machine.execRmp x s
  | .mpar x => Sys2Proof.Machine.execMpar x s
  | .spl x => Sys2Proof.Machine.execSpl x s
  | .ld x => Sys2Proof.Machine.execLd x s
  | .read x count => Sys2Proof.Machine.execRead x count s

end Sys2Proof.Machine
end

