-- ==== Sys2Proof/Machine/Cycle.lean ====
section
/-! DEFINITION. The instruction cycle (spec 40_cycle_and_control.md R70) and the placing of a word
where the next cycle fetches. -/

namespace Sys2Proof.Machine

/-- One cycle of a running machine: fetch, decode, execute (R70). -/
def runCycle (s : State) : Result :=
  match fetch s with
  | .error f => .fault f
  | .ok none => .next (raise .pcOutOfBounds s)
  | .ok (some w) =>
    match decode w with
    | .ok i => exec i s
    | .error _ => execIllegal w s

/-- `Step()`: a stopped machine stays as it is until reset (R70, R181). Log entry 10. -/
def instructionCycle (s : State) : Result :=
  match s.status with
  | .running => runCycle s
  | .halted => .next s
  | .outOfBounds => .next s

/-- Where a placed word goes: `pc`, or address 0 when `pc = 0xFFF` has no room for it. -/
def placeAddr (s : State) : Addr := if s.pc = 0xFFF#12 then 0x000#12 else s.pc

/-- The state with a word placed where the next cycle fetches, high byte first, and the machine
running. DESIGN CHOICE (safe), log entries 6 and 9: it stands for the host's load of an image. -/
def placeWord (w : Word) (s : State) : State :=
  { s with
    pc := placeAddr s
    status := .running
    mem := (s.mem.write (placeAddr s).toNat (hiByte w)).write ((placeAddr s).toNat + 1) (loByte w) }

end Sys2Proof.Machine
end

