-- ==== Sys2Proof/Machine/Step.lean ====
section
/-! DEFINITION. One step of the machine, and the host's way to put an instruction where it fetches. -/

namespace Sys2Proof.Machine

/-- One step is one instruction cycle (spec 40_cycle_and_control.md R70, R71). -/
def step (s : State) : Host.Outcome State Fault Refusal := instructionCycle s

/-- The state with the instruction whose bits are `w`, of which the opcode table gives `nbits`,
stored where `step` fetches next. -/
def State.withFetchWord (s : State) (nbits w : Nat) : State := placeWord (BitVec.ofNat 16 (w % 2 ^ nbits)) s

end Sys2Proof.Machine
end

