-- ==== Sys2Proof/Machine/Reset.lean ====
section
/-! DEFINITION. Reset with its parameters (spec 70_reset_and_hazards.md R190, R195, R196; 00_scope.md
R6). `State.reset` is this with the default parameters. -/

namespace Sys2Proof.Machine

/-- What `DEVICE_MAP` may bind to a slot (R20, R131, R186). -/
inductive DeviceKind where
  | console
  | memExt
  | rom
  | fpArith
  | user (model : Nat)
deriving DecidableEq, Repr

/-- The arguments of reset (R6, R190). `STACK_DEPTH`, `RAND` and `FP_DEVICE` are in Config. -/
structure ResetParams where
  image : List Byte
  regInit : Vector Word 16
  deviceMap : Vector (Option DeviceKind) 16
  consoleIn : List (List Char)
  romImage : Option (List Byte)
deriving DecidableEq, Repr

/-- `REG_INIT` of `State.reset`. DESIGN CHOICE (unsafe), log entry 1. -/
def defaultRegInit : Vector Word 16 := Vector.replicate 16 0x0000

/-- The default device map: slot 0 the console, the other slots empty (R20, R159). -/
def defaultDeviceMap : Vector (Option DeviceKind) 16 := (Vector.replicate 16 none).set 0 (some .console)

/-- The parameters of `State.reset`. DESIGN CHOICE, log entry 6. -/
def ResetParams.default : ResetParams :=
  { image := [], regInit := defaultRegInit, deviceMap := defaultDeviceMap, consoleIn := [], romImage := none }

/-- The rom in its reset state (R151). -/
def romReset : Option (List Byte) → Rom
  | none => { present := false, mem := [], ptr := 0 }
  | some image => { present := true, mem := Memory.ofBytes 0 image, ptr := 0 }

/-- A device in its reset state (R140, R147, R151, R157). Several consoles or roms in one map each
get the same parameter. DESIGN CHOICE, log entry 15. -/
def resetDevice (p : ResetParams) : DeviceKind → Device
  | .console => .console (Console.reset p.consoleIn)
  | .memExt => .memExt { mem := [], ptr := 0 }
  | .rom => .rom (romReset p.romImage)
  | .fpArith => .fpArith Config.fpReset
  | .user model => .user { model := model, hidden := Config.userReset model }

/-- The length of the rom image, 0 when there is none. -/
def romLength (p : ResetParams) : Nat := (p.romImage.getD []).length

/-- `Reset(...)` (R190), refusing the configurations of R195. -/
def resetWith (p : ResetParams) : Except Refusal State :=
  if Config.memSize < p.image.length then .error (.imageTooLong p.image.length)
  else if Config.deviceMemSize < romLength p then .error (.romImageTooLong (romLength p))
  else .ok {
    regs := p.regInit
    pc := 0x000
    mp := Config.mpReset
    alert := false
    status := .running
    stack := []
    mem := Memory.ofBytes 0 p.image
    dev := Vector.ofFn (fun k : Fin 16 => (p.deviceMap[k.val]).map (resetDevice p))
    draws := 0 }

end Sys2Proof.Machine
end

