-- ==== Sys2Proof/Safety.lean ====
section
/-! DEFINITION. The terms in which claims about the machine are made: the invariant of spec
10_state.md R25, the terminal status of 70_reset_and_hazards.md R198, and what "unchanged" means. -/

namespace Sys2Proof.Machine

/-- The next state of an outcome, if it is one. -/
def nextOf : Result → Option State
  | .next s => some s
  | .fault _ => none
  | .refused _ => none

/-- Change the next state of an outcome. -/
def mapNext (f : State → State) : Result → Result
  | .next s => .next (f s)
  | .fault r => .fault r
  | .refused r => .refused r

/-! ## The invariant -/

/-- The memories of a device are in canonical form within 65536 bytes (R147, R151). -/
def Device.wf : Device → Bool
  | .console _ => true
  | .memExt m => m.mem.wf Config.deviceMemSize
  | .rom r => r.mem.wf Config.deviceMemSize
  | .fpArith _ => true
  | .user _ => true

/-- What R25 asks beyond the widths of the types: memory is canonical within 4096 bytes, the stack
holds at most `STACK_DEPTH` entries, and every bound device is well formed. -/
structure State.Inv (s : State) : Prop where
  mem : s.mem.wf Config.memSize = true
  stack : s.stack.length ≤ Config.stackDepth
  dev : ∀ k d, readSlot k s = some d → d.wf = true

/-! ## Devices -/

/-- What kind of device stands in a slot: the binding that no instruction changes (R138). -/
def Device.kind : Device → DeviceKind
  | .console _ => .console
  | .memExt _ => .memExt
  | .rom _ => .rom
  | .fpArith _ => .fpArith
  | .user u => .user u.model

/-- The part of a device that never changes after reset: a rom's presence and contents (R151). -/
def Device.fixedPart : Device → Option (Bool × Memory)
  | .rom r => some (r.present, r.mem)
  | _ => none

/-! ## Frames -/

/-- Every register but those of the list holds its old value. -/
def sameRegsBut (ws : List Reg) (s t : State) : Prop := ∀ r, r ∉ ws → readReg r t = readReg r s

/-- Every byte of `M` reads as before. -/
def sameMem (s t : State) : Prop := ∀ a, t.mem.read a = s.mem.read a

/-- Every byte of `M` outside `n` bytes from `a` reads as before. -/
def sameMemOutside (a n : Nat) (s t : State) : Prop :=
  ∀ b, ¬ (a ≤ b ∧ b < a + n) → t.mem.read b = s.mem.read b

/-- Every slot holds the device state it held. -/
def sameDevices (s t : State) : Prop := ∀ k, readSlot k t = readSlot k s

/-- Every slot but one holds the device state it held. -/
def sameDevicesBut (x : Slot) (s t : State) : Prop := ∀ k, k ≠ x → readSlot k t = readSlot k s

/-- The sequential advance as R72 states it, over numbers: inside the address space `pc` moves by `k`;
leaving it ends the run. What `pc` then holds is the spec's decision D6 and stands in a statement of
its own. -/
structure Advanced (k : Nat) (s t : State) : Prop where
  pc : s.pc.toNat + k < 4096 → t.pc.toNat = s.pc.toNat + k
  status : t.status = if s.pc.toNat + k < 4096 then s.status else Status.outOfBounds

/-- Nothing but registers of the list, `pc` and `status` differs: the frame of the register
instructions, the skips and the jumps. -/
structure OnlyRegs (ws : List Reg) (s t : State) : Prop where
  regs : sameRegsBut ws s t
  mp : t.mp = s.mp
  alert : t.alert = s.alert
  stack : t.stack = s.stack
  mem : sameMem s t
  dev : sameDevices s t
  draws : t.draws = s.draws

/-- One register gets a value, `pc` advances by 2, nothing else differs (42_register_alu.md R91 to R96). -/
structure WritesOnly (x : Reg) (v : Word) (s t : State) : Prop where
  value : readReg x t = v
  frame : OnlyRegs [x] s t
  next : Advanced 2 s t

/-- A result and then the flag, 0 or 1, in `x[15]`: with X = 0xF the flag is what remains (R103). The
result is given as a number. -/
structure WritesWithFlag (x : Reg) (v : Nat) (f : Prop) (s t : State) : Prop where
  value : x ≠ 15 → (readReg x t).toNat = v
  set : f → readReg 15 t = 1
  clear : ¬ f → readReg 15 t = 0
  frame : OnlyRegs [x, 15] s t
  next : Advanced 2 s t

/-- The bytes of the valid window of a range of `n` bytes at `mp`, lowest address first (20_memory.md
R37). -/
def windowBytes (s : State) (n : Nat) : List Byte :=
  (List.range (min n (4096 - s.mp.toNat))).map (fun i => s.mem.read (s.mp.toNat + i))

/-! ## Console text (46_standard_devices.md R141, R143) -/

/-- The character is a digit of the base of the format code (R143). -/
def isDigitOf (fmt : BitVec 1) (c : Char) : Prop :=
  if fmt = 0 then c ∈ "0123456789".toList else c ∈ "0123456789abcdefABCDEF".toList

/-- The value of a byte list as R141 writes it out: the first byte weighs most. -/
def bigEndian : List Byte → Nat
  | [] => 0
  | b :: bs => b.toNat * 256 ^ bs.length + bigEndian bs

/-- The character is white space around a token (R143; the six characters are the model's choice, log
entry 7). -/
def isWhite (c : Char) : Prop := c.toNat ∈ [0x20, 0x09, 0x0A, 0x0B, 0x0C, 0x0D]

/-- No white space at either end. -/
def isTrimmed (t : List Char) : Prop := ∀ c, t.head? = some c ∨ t.getLast? = some c → ¬ isWhite c

/-- The value of a digit character. -/
def digitNat (c : Char) : Nat :=
  if c.toNat < 58 then c.toNat - 48 else if c.toNat < 71 then c.toNat - 55 else c.toNat - 87

/-- The number a digit string stands for in a base. -/
def textValue (base : Nat) (t : List Char) : Nat := t.foldl (fun v c => v * base + digitNat c) 0

/-! ## Register use (10_state.md R12) -/

/-- The registers an instruction reads (R12). -/
def regsRead : Instr → List Reg
  | .snec x _ => [x]
  | .snuec x _ => [x]
  | .sne x y => [x, y]
  | .snue x y => [x, y]
  | .acr _ _ => []
  | .adc x _ => [x]
  | .ar _ y => [y]
  | .or x y => [x, y]
  | .and x y => [x, y]
  | .xor x y => [x, y]
  | .add x y => [x, y]
  | .sub x y => [x, y]
  | .rsub x y => [x, y]
  | .shr x _ => [x]
  | .shl x _ => [x]
  | .cpac _ => [0]
  | .bar _ _ => []
  | .dps _ => [flagReg]
  | .dpg _ => []
  | .callr x => [x]
  | .rmp _ => []
  | .mpar x => [x]
  | .spl x => [x]
  | .ld _ => []
  | .halt => []
  | .ret => []
  | .goto _ => []
  | .call _ => []
  | .smp _ => []
  | .write _ _ => []
  | .read _ _ => []

/-- The registers an instruction may write (R12). -/
def regsWritten : Instr → List Reg
  | .snec _ _ => []
  | .snuec _ _ => []
  | .sne _ _ => []
  | .snue _ _ => []
  | .acr x _ => [x]
  | .adc x _ => [x]
  | .ar x _ => [x]
  | .or x _ => [x]
  | .and x _ => [x]
  | .xor x _ => [x]
  | .add x _ => [x, flagReg]
  | .sub x _ => [x, flagReg]
  | .rsub x _ => [x, flagReg]
  | .shr x _ => [x, flagReg]
  | .shl x _ => [x, flagReg]
  | .cpac _ => []
  | .bar x _ => [x]
  | .dps _ => []
  | .dpg _ => [flagReg]
  | .callr _ => []
  | .rmp x => [x]
  | .mpar _ => []
  | .spl _ => []
  | .ld x => registersUpTo x
  | .halt => []
  | .ret => []
  | .goto _ => []
  | .call _ => []
  | .smp _ => []
  | .write _ _ => []
  | .read _ _ => []

/-! ## The end of a run (70_reset_and_hazards.md R198, R200) -/

/-- The host's three-valued status. -/
inductive TerminalStatus where
  | haltedCleanly
  | haltedWithAlert
  | outOfBounds
deriving DecidableEq, Repr

/-- What the host reads when the machine is stopped; nothing while it runs (R198). -/
def terminalStatus (s : State) : Option TerminalStatus :=
  match s.status, s.alert with
  | .running, _ => none
  | .halted, false => some .haltedCleanly
  | .halted, true => some .haltedWithAlert
  | .outOfBounds, _ => some .outOfBounds

/-- Whether the exit code is 0; its value otherwise is the host's (R198). -/
def exitsWithZero (s : State) : Bool := decide (terminalStatus s = some .haltedCleanly)

/-- The state after up to `n` cycles (R71): each cycle of a stopped machine changes nothing. -/
def runCycles : Nat → State → Result
  | 0, s => .next s
  | n + 1, s =>
    match step s with
    | .next t => runCycles n t
    | .fault f => .fault f
    | .refused r => .refused r

end Sys2Proof.Machine
end

