-- ==== Sys2Proof/Certificates/Slice0/Obligations.lean ====
section
/-! DEFINITION. The statements for the provers. Each says which rules of spec/ it formalises. -/

open Sys2Proof Sys2Proof.Machine

/-! ## Encoding (30_encoding.md) -/

/-- Tier 3. Decoding the word of any well-formed instruction gives the instruction back, with every
operand at every value its field admits (R52, R54, R55). -/
def Obligations.DecodeOfEncode : Prop := ∀ i : Instr, i.wellFormed = true → decode (encode i) = .ok i

/-- A word that decodes is the word of the instruction it decodes to, and that instruction is well
formed: no two words share a meaning (R54). -/
def Obligations.EncodeOfDecode : Prop :=
  ∀ (w : Word) (i : Instr), decode w = .ok i → encode i = w ∧ i.wellFormed = true

/-- A word decodes exactly when it matches a row of the opcode map, and then to the instruction of
that row; no word matches two rows (R54, R55). -/
def Obligations.DecodeFollowsOpcodeMap : Prop :=
  (∀ (w : Word) (i : Instr), decode w = .ok i → rowMatches w (opcodeRow i) = true) ∧
  (∀ (w : Word) (r : OpcodeRow), r ∈ opcodeTable → rowMatches w r = true →
    ∃ i, decode w = .ok i ∧ opcodeRow i = r) ∧
  (∀ (w : Word) (r r' : OpcodeRow), r ∈ opcodeTable → r' ∈ opcodeTable → rowMatches w r = true →
    rowMatches w r' = true → r = r')

/-- The illegal words are those of the five groups of R56 and no others; the decoder reports each by
itself. -/
def Obligations.IllegalWordsAreTheFiveGroups : Prop :=
  ∀ w : Word, decode w = .error (.illegalWord w) ↔
    (w.toNat / 4096 = 0 ∧ w ≠ 0x0000 ∧ w ≠ 0x01EE) ∨
    (w.toNat / 4096 = 5 ∧ w.toNat % 16 ≠ 0) ∨
    (w.toNat / 4096 = 8 ∧ w.toNat % 16 ∈ [0x8, 0x9, 0xA, 0xB, 0xC, 0xD, 0xF]) ∨
    (w.toNat / 4096 = 9 ∧ w.toNat % 16 ≠ 0) ∨
    (w.toNat / 4096 = 0xE ∧ w.toNat % 256 ∉ [0x00, 0x01, 0x1C, 0x1D, 0x1E, 0x55, 0x65])

/-- Words written out in 95_test_vectors.md section 2 decode as listed there. -/
def Obligations.SampleWordsDecode : Prop :=
  decode 0x01EE = .ok .ret ∧ decode 0x2ABC = .ok (.call 0xABC) ∧ decode 0x5120 = .ok (.sne 1 2) ∧
  decode 0x6FAB = .ok (.acr 15 0xAB) ∧ decode 0x8AB6 = .ok (.shr 10 11) ∧ decode 0x8ABE = .ok (.shl 10 11) ∧
  decode 0xC30F = .ok (.bar 3 0x0F) ∧ decode 0xE11E = .ok (.mpar 1) ∧ decode 0xEF65 = .ok (.ld 15) ∧
  decode 0xFFFF = .ok (.read 15 255) ∧ decode 0x00EE = .error (.illegalWord 0x00EE)

/-! ## The instruction cycle (40_cycle_and_control.md, 20_memory.md) -/

/-- When the two bytes at `pc` of a running machine, high byte first, decode to `i`, the step is `exec i`
at that very state: nothing is added around it, each instruction updates `pc` itself (R70, R73). -/
def Obligations.StepRunsDecodedInstruction : Prop :=
  ∀ (s : State) (i : Instr), s.status = .running → s.pc ≠ 0xFFF →
    decode (joinBytes (s.mem.read s.pc.toNat) (s.mem.read (s.pc.toNat + 1))) = .ok i → step s = exec i s

/-- The whole of the cycle of R70 with the fetch of R36: a stopped machine stays as it is; the fetch at
0xFFF stops with nothing executed (the spec's decision D7, log entry 12); an illegal word raises its
exception and advances by 2; a legal one is executed. -/
def Obligations.StepFollowsInstructionCycle : Prop :=
  ∀ s : State,
    (s.status ≠ .running → step s = .next s) ∧
    (s.status = .running → s.pc = 0xFFF → step s = .next { s with status := .outOfBounds }) ∧
    (s.status = .running → s.pc ≠ 0xFFF →
      ∃ w : Word, w.toNat = (s.mem.read s.pc.toNat).toNat * 256 + (s.mem.read (s.pc.toNat + 1)).toNat ∧
        ((∃ i, decode w = .ok i ∧ step s = exec i s) ∨
         (decode w = .error (.illegalWord w) ∧
          step s = .next (advance 2 (raise (.illegalOpcode w) s)))))

/-- R172: a step that fetches an illegal word sets the alert, advances `pc` by 2 (which at 0xFFE also
leaves the address space) and leaves everything else; the word is recorded nowhere. -/
def Obligations.IllegalWordAlertsAndAdvances : Prop :=
  ∀ s : State, s.status = .running → s.pc ≠ 0xFFF →
    (∀ i, decode (joinBytes (s.mem.read s.pc.toNat) (s.mem.read (s.pc.toNat + 1))) ≠ .ok i) →
    ∃ t, step s = .next t ∧ t.alert = true ∧ Advanced 2 s t ∧ OnlyRegs [] s { t with alert := s.alert }

/-- The sequential advance after R72, over numbers, and that it touches nothing else, `alert` in
particular. That `pc` holds the sum modulo 4096 after it left the address space is the spec's decision D6
(log entry 12). -/
def Obligations.AdvanceFollowsRule : Prop :=
  ∀ (k : Nat) (s : State), k = 2 ∨ k = 4 → Advanced k s (advance k s) ∧
    (advance k s).pc.toNat = (s.pc.toNat + k) % 4096 ∧ OnlyRegs [] s (advance k s)

/-- Every step of every state answers a next state: errors are never raised to the host (R70, R170). -/
def Obligations.StepAlwaysAnswersNext : Prop := ∀ s : State, ∃ t, step s = .next t

/-- R200: a run has ended exactly when `status` is not running; that state never changes again, however
many more cycles are asked for. -/
def Obligations.StoppedRunNeverChanges : Prop :=
  ∀ (n m : Nat) (s t : State), runCycles n s = .next t → t.status ≠ .running → runCycles (n + m) s = .next t

/-! ## Control transfer (40_cycle_and_control.md) -/

/-- HALT after R74. That `pc` keeps the address of the HALT is the spec's decision D8 (log entry 12). -/
def Obligations.HaltStops : Prop :=
  decode 0x0000 = .ok .halt ∧ ∀ s : State, exec .halt s = .next { s with status := .halted }

/-- RET after R75 and R174: on every non-empty stack it completes and takes the top as it is; on an empty
stack it alerts and halts with `pc` unchanged, which is the spec's decision D9 (log entry 12). -/
def Obligations.RetPopsOrUnderflows : Prop :=
  decode 0x01EE = .ok .ret ∧
  (∀ (s : State) (st : List Addr) (v : Addr), s.stack = st ++ [v] →
    exec .ret s = .next { s with pc := v, stack := st }) ∧
  (∀ s : State, s.stack ≠ [] → ∃ t, exec .ret s = .next t ∧ s.stack = t.stack ++ [t.pc] ∧
    t.status = s.status ∧ OnlyRegs [] s { t with stack := s.stack }) ∧
  (∀ s : State, s.stack = [] → exec .ret s = .next { s with alert := true, status := .halted })

/-- R76. -/
def Obligations.GotoJumps : Prop :=
  ∀ nnn : Addr, decode (formatA 0x1 nnn) = .ok (.goto nnn) ∧
    ∀ s : State, exec (.goto nnn) s = .next { s with pc := nnn }

/-- CALL after R77 and R173: it pushes `(pc + 2) mod 4096` and jumps; on a full stack it alerts and halts
with `pc` and the stack unchanged. The modulus, the depth 16 and the unchanged `pc` are the spec's
decisions D10, D5 and D9 (log entries 8 and 12). -/
def Obligations.CallPushesAndJumps : Prop :=
  ∀ nnn : Addr, decode (formatA 0x2 nnn) = .ok (.call nnn) ∧
    (∀ s : State, s.stack.length < 16 → ∃ ra : Addr, ra.toNat = (s.pc.toNat + 2) % 4096 ∧
      exec (.call nnn) s = .next { s with pc := nnn, stack := s.stack ++ [ra] }) ∧
    (∀ s : State, s.stack.length = 16 →
      exec (.call nnn) s = .next { s with alert := true, status := .halted })

/-- R78. -/
def Obligations.CpacJumps : Prop :=
  ∀ nnn : Addr, decode (formatA 0xB nnn) = .ok (.cpac nnn) ∧
    ∀ s : State, ∃ a : Addr, a.toNat = ((readReg 0 s).toNat + nnn.toNat) % 4096 ∧
      exec (.cpac nnn) s = .next { s with pc := a }

/-- CALLR after R79 and R173: as CALL, with the same decisions of the spec, to the low 12 bits of
`x[X]`. -/
def Obligations.CallrPushesAndJumps : Prop :=
  ∀ x : Reg, decode (formatI 0xE x 0x1C) = .ok (.callr x) ∧
    (∀ s : State, s.stack.length < 16 → ∃ a ra : Addr, a.toNat = (readReg x s).toNat % 4096 ∧
      ra.toNat = (s.pc.toNat + 2) % 4096 ∧
      exec (.callr x) s = .next { s with pc := a, stack := s.stack ++ [ra] }) ∧
    (∀ s : State, s.stack.length = 16 →
      exec (.callr x) s = .next { s with alert := true, status := .halted })

/-- R80: a call and the return that meets the same stack pair up, whatever the subroutine did to the
rest of the state: control resumes after the call, the stack is the caller's, and the return itself
changes nothing else. That the address after the call is taken modulo 4096, which shows at `pc = 0xFFE`, is
the spec's decision D10 (log entry 12). -/
def Obligations.CallThenRetReturns : Prop :=
  ∀ (i : Instr) (s t u : State), ((∃ nnn, i = .call nnn) ∨ (∃ x, i = .callr x)) → s.stack.length < 16 →
    exec i s = .next t → u.stack = t.stack →
    ∃ a : Addr, a.toNat = (s.pc.toNat + 2) % 4096 ∧ exec .ret u = .next { u with pc := a, stack := s.stack }

/-! ## Skips (41_skips.md) -/

/-- R85, R86: the whole 16-bit register is compared with the zero-extended constant. -/
def Obligations.ConstantSkips : Prop :=
  ∀ (x : Reg) (nn : Byte),
    decode (formatI 0x3 x nn) = .ok (.snec x nn) ∧ decode (formatI 0x4 x nn) = .ok (.snuec x nn) ∧
    ∀ s : State,
      (∃ t, exec (.snec x nn) s = .next t ∧ OnlyRegs [] s t ∧
        Advanced (if (readReg x s).toNat = nn.toNat then 4 else 2) s t) ∧
      (∃ t, exec (.snuec x nn) s = .next t ∧ OnlyRegs [] s t ∧
        Advanced (if (readReg x s).toNat = nn.toNat then 2 else 4) s t)

/-- R87, R88. -/
def Obligations.RegisterSkips : Prop :=
  ∀ x y : Reg,
    decode (formatR 0x5 x y 0x0) = .ok (.sne x y) ∧ decode (formatR 0x9 x y 0x0) = .ok (.snue x y) ∧
    ∀ s : State,
      (∃ t, exec (.sne x y) s = .next t ∧ OnlyRegs [] s t ∧
        Advanced (if readReg x s = readReg y s then 4 else 2) s t) ∧
      (∃ t, exec (.snue x y) s = .next t ∧ OnlyRegs [] s t ∧
        Advanced (if readReg x s = readReg y s then 2 else 4) s t)

/-! ## Register and ALU instructions (42_register_alu.md) -/

/-- R91, R92, R93: ACR, ADC and AR write their destination, wrapping modulo 2^16, and no flag. -/
def Obligations.AcrAdcArResults : Prop :=
  (∀ (x : Reg) (nn : Byte),
    decode (formatI 0x6 x nn) = .ok (.acr x nn) ∧ decode (formatI 0x7 x nn) = .ok (.adc x nn) ∧
    ∀ s : State,
      (∃ t, exec (.acr x nn) s = .next t ∧ WritesOnly x (BitVec.ofNat 16 nn.toNat) s t) ∧
      (∃ t, exec (.adc x nn) s = .next t ∧
        WritesOnly x (BitVec.ofNat 16 ((readReg x s).toNat + nn.toNat)) s t)) ∧
  (∀ x y : Reg, decode (formatR 0x8 x y 0x0) = .ok (.ar x y) ∧
    ∀ s : State, ∃ t, exec (.ar x y) s = .next t ∧ WritesOnly x (readReg y s) s t)

/-- R94, R95, R96: OR, AND and XOR, bit by bit, and no flag. -/
def Obligations.LogicResults : Prop :=
  ∀ x y : Reg,
    decode (formatR 0x8 x y 0x1) = .ok (.or x y) ∧ decode (formatR 0x8 x y 0x2) = .ok (.and x y) ∧
    decode (formatR 0x8 x y 0x3) = .ok (.xor x y) ∧
    ∀ s : State,
      (∃ t, exec (.or x y) s = .next t ∧ WritesOnly x (readReg x s ||| readReg y s) s t) ∧
      (∃ t, exec (.and x y) s = .next t ∧ WritesOnly x (readReg x s &&& readReg y s) s t) ∧
      (∃ t, exec (.xor x y) s = .next t ∧ WritesOnly x (readReg x s ^^^ readReg y s) s t)

/-- R97: the sum modulo 2^16, then the carry. -/
def Obligations.AddResult : Prop :=
  ∀ x y : Reg, decode (formatR 0x8 x y 0x4) = .ok (.add x y) ∧
    ∀ s : State, ∃ t, exec (.add x y) s = .next t ∧
      WritesWithFlag x (((readReg x s).toNat + (readReg y s).toNat) % 65536)
        ((readReg x s).toNat + (readReg y s).toNat > 0xFFFF) s t

/-- R98: the difference modulo 2^16, then 1 exactly when there is no borrow. -/
def Obligations.SubResult : Prop :=
  ∀ x y : Reg, decode (formatR 0x8 x y 0x5) = .ok (.sub x y) ∧
    ∀ s : State, ∃ t, exec (.sub x y) s = .next t ∧
      WritesWithFlag x (((readReg x s).toNat + (65536 - (readReg y s).toNat)) % 65536)
        ((readReg x s).toNat ≥ (readReg y s).toNat) s t

/-- R100: as SUB with the operands exchanged; the destination is still `x[X]`. -/
def Obligations.RsubResult : Prop :=
  ∀ x y : Reg, decode (formatR 0x8 x y 0x7) = .ok (.rsub x y) ∧
    ∀ s : State, ∃ t, exec (.rsub x y) s = .next t ∧
      WritesWithFlag x (((readReg y s).toNat + (65536 - (readReg x s).toNat)) % 65536)
        ((readReg y s).toNat ≥ (readReg x s).toNat) s t

/-- R99: a logical shift by the constant Y; the flag is bit Y of the old value, not bit Y - 1. -/
def Obligations.ShrResult : Prop :=
  ∀ x y : Fin 16, decode (formatR 0x8 x y 0x6) = .ok (.shr x y.val) ∧
    ∀ s : State, ∃ t, exec (.shr x y.val) s = .next t ∧
      WritesWithFlag x ((readReg x s).toNat / 2 ^ y.val)
        ((readReg x s).toNat / 2 ^ y.val % 2 = 1) s t

/-- R101: a shift by the constant Y; the flag is bit 16 - Y of the old value, and 0 for Y = 0. -/
def Obligations.ShlResult : Prop :=
  ∀ x y : Fin 16, decode (formatR 0x8 x y 0xE) = .ok (.shl x y.val) ∧
    ∀ s : State, ∃ t, exec (.shl x y.val) s = .next t ∧
      WritesWithFlag x ((readReg x s).toNat * 2 ^ y.val % 65536)
        (y ≠ 0 ∧ (readReg x s).toNat / 2 ^ (16 - y.val) % 2 = 1) s t

/-- BAR after R102: `x[X]` gets the next draw under the mask NN, so `x[X] & ~NN = 0`, and the draw is used up,
so the next BAR takes a fresh one; that no flag is written is the spec's decision D29 (log entry 12). The
draw is the free value of log entry 2, and the count of draws is the model's own: the statement holds for
every value of both. -/
def Obligations.BarResult : Prop :=
  ∀ (x : Reg) (nn : Byte), decode (formatI 0xC x nn) = .ok (.bar x nn) ∧
    ∀ s : State, ∃ t : State, exec (.bar x nn) s = .next t ∧
      (readReg x t).toNat = (Config.draw8 s.draws &&& nn).toNat ∧ readReg x t &&& ~~~(nn.setWidth 16) = 0 ∧
      t.draws = s.draws + 1 ∧ OnlyRegs [x] s { t with draws := s.draws } ∧ Advanced 2 s t

/-! ## Memory pointer, store and load (43_memory_pointer.md) -/

/-- R110, R111, R112. -/
def Obligations.MemoryPointerMoves : Prop :=
  (∀ nnn : Addr, decode (formatA 0xA nnn) = .ok (.smp nnn) ∧
    ∀ s : State, ∃ t, exec (.smp nnn) s = .next t ∧ t.mp = nnn ∧
      OnlyRegs [] s { t with mp := s.mp } ∧ Advanced 2 s t) ∧
  (∀ x : Reg, decode (formatI 0xE x 0x1D) = .ok (.rmp x) ∧ decode (formatI 0xE x 0x1E) = .ok (.mpar x) ∧
    ∀ s : State,
      (∃ t, exec (.rmp x) s = .next t ∧ WritesOnly x (BitVec.ofNat 16 s.mp.toNat) s t) ∧
      (∃ t, exec (.mpar x) s = .next t ∧ t.mp.toNat = (s.mp.toNat + (readReg x s).toNat) % 4096 ∧
        OnlyRegs [] s { t with mp := s.mp } ∧ Advanced 2 s t))

/-- SPL after R113: it stores one register, high byte first; at `mp = 0xFFF` the high byte alone, with the
alert (the spec's decision D11, log entry 12); no other byte of memory and nothing else changes. -/
def Obligations.SplStoresRegister : Prop :=
  ∀ x : Reg, decode (formatI 0xE x 0x55) = .ok (.spl x) ∧
    ∀ s : State, s.Inv →
      (s.mp.toNat ≤ 0xFFE → ∃ t, exec (.spl x) s = .next t ∧
        (t.mem.read s.mp.toNat).toNat = (readReg x s).toNat / 256 ∧
        (t.mem.read (s.mp.toNat + 1)).toNat = (readReg x s).toNat % 256 ∧
        sameMemOutside s.mp.toNat 2 s t ∧
        OnlyRegs [] s { t with mem := s.mem } ∧ Advanced 2 s t) ∧
      (s.mp.toNat = 0xFFF → ∃ t, exec (.spl x) s = .next t ∧
        (t.mem.read 0xFFF).toNat = (readReg x s).toNat / 256 ∧ t.alert = true ∧
        sameMemOutside 0xFFF 1 s t ∧
        OnlyRegs [] s { t with mem := s.mem, alert := s.alert } ∧ Advanced 2 s t)

/-- LD after R114: it loads `x[0]` to `x[X]`, each from its two bytes when both lie below 4096; the others
keep their values (the spec's decision D11, log entry 12), and a range that passes the top sets the
alert. -/
def Obligations.LdLoadsRegisters : Prop :=
  ∀ x : Reg, decode (formatI 0xE x 0x65) = .ok (.ld x) ∧
    ∀ s : State, ∃ t, exec (.ld x) s = .next t ∧
      (∀ k : Reg, k ≤ x → s.mp.toNat + 2 * k.val + 2 ≤ 4096 →
        (readReg k t).toNat = (s.mem.read (s.mp.toNat + 2 * k.val)).toNat * 256 +
          (s.mem.read (s.mp.toNat + 2 * k.val + 1)).toNat) ∧
      (∀ k : Reg, ¬ (k ≤ x ∧ s.mp.toNat + 2 * k.val + 2 ≤ 4096) → readReg k t = readReg k s) ∧
      t.alert = (s.alert || decide (s.mp.toNat + 2 * (x.val + 1) > 4096)) ∧
      OnlyRegs (List.finRange 16) s { t with alert := s.alert } ∧ Advanced 2 s t

/-- The round trip that the spec infers in R116: for `mp <= 0xFFE`, SPL of a register and then LD of `r0`
at the same `mp` leaves `x[0]` equal to the stored value. -/
def Obligations.SplThenLdRoundTrip : Prop :=
  ∀ (x : Reg) (s : State), s.Inv → s.mp.toNat ≤ 0xFFE →
    ∃ t u, exec (.spl x) s = .next t ∧ exec (.ld 0) t = .next u ∧ readReg 0 u = readReg x s

/-- What the spec infers in R44, that a store is seen by the very next fetch: when SPL has stored a word
where the machine goes on, the next step runs the instruction that word decodes to. -/
def Obligations.StoreIsSeenByNextFetch : Prop :=
  ∀ (x : Reg) (s t : State) (i : Instr), s.Inv → s.status = .running → s.pc.toNat + 2 = s.mp.toNat →
    s.mp.toNat ≤ 0xFFE → exec (.spl x) s = .next t → decode (readReg x s) = .ok i → step t = exec i t

/-! ## Device instructions (44_device_instructions.md, 45_device_bus.md) -/

/-- WRITE after R120: one write of the bytes of the valid window on the device of its slot; the alert is
raised by a cut range, by the device, or by an empty slot, which is otherwise left alone; nothing else
changes. The cut operation, the empty one and the device's way to alert are the spec's decisions D11, D12
and D30 (log entry 12). -/
def Obligations.WriteSendsWindow : Prop :=
  ∀ (x : Slot) (nn : Byte), decode (formatI 0xD x nn) = .ok (.write x nn.toNat) ∧
    ∀ s : State,
      (∀ d, readSlot x s = some d → ∃ t, exec (.write x nn.toNat) s = .next t ∧
        readSlot x t = some (deviceWrite d (windowBytes s nn.toNat)).state ∧ sameDevicesBut x s t ∧
        t.alert = (s.alert || decide (s.mp.toNat + nn.toNat > 4096) ||
          (deviceWrite d (windowBytes s nn.toNat)).fault) ∧
        OnlyRegs [] s { t with dev := s.dev, alert := s.alert } ∧ Advanced 2 s t) ∧
      (readSlot x s = none → ∃ t, exec (.write x nn.toNat) s = .next t ∧ t.alert = true ∧
        OnlyRegs [] s { t with alert := s.alert } ∧ Advanced 2 s t)

/-- READ after R121: it asks the device of its slot for the count of the valid window and stores the bytes
it returns from `mp` upward, none when the read fails; every other byte of memory keeps its value; an empty
slot gives no byte. The cut count, the empty count, short replies, failing ones and the device's way to
alert are the spec's decisions D11 to D14 and D30 (log entry 12); that the open devices keep the contract's
bound is log entry 5. -/
def Obligations.ReadStoresReply : Prop :=
  ∀ (x : Slot) (nn : Byte), decode (formatI 0xF x nn) = .ok (.read x nn.toNat) ∧
    ∀ s : State, s.Inv →
      (∀ d r, readSlot x s = some d → r = deviceRead d (min nn.toNat (4096 - s.mp.toNat)) →
        ∃ t, exec (.read x nn.toNat) s = .next t ∧
        r.value.length ≤ min nn.toNat (4096 - s.mp.toNat) ∧ (r.fault = true → r.value = []) ∧
        (∀ i, i < r.value.length → t.mem.read (s.mp.toNat + i) = r.value.getD i 0) ∧
        sameMemOutside s.mp.toNat r.value.length s t ∧
        readSlot x t = some r.state ∧ sameDevicesBut x s t ∧
        t.alert = (s.alert || decide (s.mp.toNat + nn.toNat > 4096) || r.fault) ∧
        OnlyRegs [] s { t with mem := s.mem, dev := s.dev, alert := s.alert } ∧ Advanced 2 s t) ∧
      (readSlot x s = none → ∃ t, exec (.read x nn.toNat) s = .next t ∧ t.alert = true ∧
        OnlyRegs [] s { t with alert := s.alert } ∧ Advanced 2 s t)

/-- DPS after R122: it gives the whole of `x[15]` to the device of its slot; an empty slot only alerts. The
device's way to alert is the spec's decision D30 (log entry 12). -/
def Obligations.DpsSetsDevicePointer : Prop :=
  ∀ x : Slot, decode (formatI 0xE x 0x00) = .ok (.dps x) ∧
    ∀ s : State,
      (∀ d, readSlot x s = some d → ∃ t, exec (.dps x) s = .next t ∧
        readSlot x t = some (deviceSetPointer d (readReg 15 s)).state ∧ sameDevicesBut x s t ∧
        t.alert = (s.alert || (deviceSetPointer d (readReg 15 s)).fault) ∧
        OnlyRegs [] s { t with dev := s.dev, alert := s.alert } ∧ Advanced 2 s t) ∧
      (readSlot x s = none → ∃ t, exec (.dps x) s = .next t ∧ t.alert = true ∧
        OnlyRegs [] s { t with alert := s.alert } ∧ Advanced 2 s t)

/-- DPG after R123: it puts the device's pointer into `x[15]`; an empty slot alerts and leaves `x[15]`, which
is the spec's decision D22, as the device's way to alert is D30 (log entry 12). -/
def Obligations.DpgReadsDevicePointer : Prop :=
  ∀ x : Slot, decode (formatI 0xE x 0x01) = .ok (.dpg x) ∧
    ∀ s : State,
      (∀ d, readSlot x s = some d → ∃ t, exec (.dpg x) s = .next t ∧
        readReg 15 t = (deviceGetPointer d).value ∧
        readSlot x t = some (deviceGetPointer d).state ∧ sameDevicesBut x s t ∧
        t.alert = (s.alert || (deviceGetPointer d).fault) ∧
        OnlyRegs [15] s { t with dev := s.dev, alert := s.alert } ∧ Advanced 2 s t) ∧
      (readSlot x s = none → ∃ t, exec (.dpg x) s = .next t ∧ t.alert = true ∧
        OnlyRegs [] s { t with alert := s.alert } ∧ Advanced 2 s t)

/-! ## Standard devices (46_standard_devices.md) -/

/-- After R141 and the spec's decision D15 (log entry 12): in format 0 a write appends the decimal digits
of the big-endian value, with no leading zero, `0` alone for zero and for the empty list; it does not fail
and changes nothing else. -/
def Obligations.ConsolePrintsDecimal : Prop :=
  ∀ (c : Console) (bs : List Byte), c.fmt = 0 → ∃ text : List Char,
    (consoleWrite c bs).state = { c with output := c.output ++ text } ∧ (consoleWrite c bs).fault = false ∧
    text ≠ [] ∧ (∀ ch ∈ text, isDigitOf 0 ch) ∧ textValue 10 text = bigEndian bs ∧
    (text.head? = some '0' → text = ['0'])

/-- After R142 and the spec's decision D15 (log entry 12): in format 1 a write appends two upper-case
digits for each byte, high nibble first. -/
def Obligations.ConsolePrintsHexadecimal : Prop :=
  ∀ (c : Console) (bs : List Byte), c.fmt = 1 →
    (consoleWrite c bs).state = { c with output := c.output ++ bs.flatMap (fun b =>
      ["0123456789ABCDEF".toList.getD (b.toNat / 16) ' ', "0123456789ABCDEF".toList.getD (b.toNat % 16) ' ']) } ∧
    (consoleWrite c bs).fault = false

/-- The console's read after R143: no line left fails and changes nothing; a line whose token is one or
more digits of the format's base gives exactly `n` bytes whose value is the token's modulo 256^n; any
other line is consumed and fails with zero bytes. The token of a line is what stands between the white
space at its ends. Tokens and failures are the spec's decision D15 (log entry 12); what is trimmed as white
space is the model's choice (log entry 7). -/
def Obligations.ConsoleReadParsesToken : Prop :=
  ∀ (c : Console) (n : Nat),
    (c.input = [] → consoleRead c n = ⟨c, [], true⟩) ∧
    (∀ line rest, c.input = line :: rest →
      ((token line ≠ [] ∧ ∀ ch ∈ token line, isDigitOf c.fmt ch) →
        (consoleRead c n).state = { c with input := rest } ∧ (consoleRead c n).fault = false ∧
        (consoleRead c n).value.length = n ∧
        bigEndian (consoleRead c n).value =
          textValue (if c.fmt = 0 then 10 else 16) (token line) % 256 ^ n) ∧
      (¬ (token line ≠ [] ∧ ∀ ch ∈ token line, isDigitOf c.fmt ch) →
        consoleRead c n = ⟨{ c with input := rest }, [], true⟩)) ∧
    (∀ l t r : List Char, (∀ ch ∈ l ++ r, isWhite ch) → isTrimmed t → token (l ++ t ++ r) = t)

/-- A console that is given the text it printed reads the bytes back, in either format: a consequence of
R141 to R143 and the spec's decision D15 (log entry 12); the empty list prints nothing in format 1 and is
left out there. -/
def Obligations.ConsoleReadsBackItsText : Prop :=
  ∀ (c : Console) (bs : List Byte) (text : List Char) (rest : List (List Char)),
    (consoleWrite c bs).state.output = c.output ++ text → (c.fmt = 0 ∨ bs ≠ []) →
    consoleRead { c with input := text :: rest } bs.length = ⟨{ c with input := rest }, bs, false⟩

/-- R144, R145. -/
def Obligations.ConsolePointerIsFormatCode : Prop :=
  ∀ (c : Console) (v : Word),
    (∃ f : BitVec 1, f.toNat = v.toNat % 2 ∧ consoleSetPointer c v = ⟨{ c with fmt := f }, (), false⟩) ∧
    (∃ r : Word, r.toNat = c.fmt.toNat ∧ consoleGetPointer c = ⟨c, r, false⟩)

/-- After R148: the bytes are copied from the pointer on, which wraps from 0xFFFF to 0 (the spec's decision
D16, log entry 12); every other byte of the device keeps its value; the pointer moves by the count; the
write does not fail. -/
def Obligations.MemExtWriteCopies : Prop :=
  ∀ (m : MemExt) (bs : List Byte), m.mem.wf 65536 = true → bs.length ≤ 255 →
    (memExtWrite m bs).fault = false ∧
    (memExtWrite m bs).state.ptr.toNat = (m.ptr.toNat + bs.length) % 65536 ∧
    (∀ i, i < bs.length → (memExtWrite m bs).state.mem.read ((m.ptr.toNat + i) % 65536) = bs.getD i 0) ∧
    (∀ a, (∀ i, i < bs.length → a ≠ (m.ptr.toNat + i) % 65536) →
      (memExtWrite m bs).state.mem.read a = m.mem.read a)

/-- After R149 and R150: a read gives exactly the bytes from the pointer on, which wraps modulo 65536 (the
spec's decision D16, log entry 12), and moves the pointer; set_pointer and get_pointer expose it; none
fails or changes a byte. -/
def Obligations.MemExtReadAndPointer : Prop :=
  ∀ (m : MemExt) (n : Nat) (v : Word),
    memExtRead m n = ⟨{ m with ptr := BitVec.ofNat 16 (m.ptr.toNat + n) },
      (List.range n).map (fun i => m.mem.read ((m.ptr.toNat + i) % 65536)), false⟩ ∧
    memExtSetPointer m v = ⟨{ m with ptr := v }, (), false⟩ ∧ memExtGetPointer m = ⟨m, m.ptr, false⟩

/-- After R152 to R154: a rom reads as a mem_ext when its image is present and fails with zero bytes when
not; every write fails and changes nothing; the pointer operations never fail, present or not (the
spec's decision D17, log entry 12). -/
def Obligations.RomIsReadOnly : Prop :=
  ∀ (r : Rom) (n : Nat) (v : Word) (bs : List Byte),
    (r.present = true → romRead r n = ⟨{ r with ptr := BitVec.ofNat 16 (r.ptr.toNat + n) },
      (List.range n).map (fun i => r.mem.read ((r.ptr.toNat + i) % 65536)), false⟩) ∧
    (r.present = false → romRead r n = ⟨r, [], true⟩) ∧
    romWrite r bs = ⟨r, (), true⟩ ∧ romSetPointer r v = ⟨{ r with ptr := v }, (), false⟩ ∧
    romGetPointer r = ⟨r, r.ptr, false⟩

/-! ## Rules of the whole machine -/

/-- Tier 3. R25 beyond the widths the types fix: from any state with canonical memories and a stack of at
most 16 entries (the spec's decision D5, log entry 8), every step leads to such a state, whatever the word
fetched and whatever it raised. -/
def Obligations.StepKeepsInvariant : Prop := ∀ s t : State, s.Inv → step s = .next t → t.Inv

/-- The state after reset satisfies the invariant. -/
def Obligations.ResetSatisfiesInvariant : Prop := State.reset.Inv

/-- After R190 and R195: reset with any parameters gives every piece of state its value, the image from
address 0 and 0x00 above it, and a state that satisfies the invariant; it refuses exactly an image longer
than 4096 bytes or a rom image longer than 65536. The fill, `mp`, the stack, the devices, the alert and the
refusals are the spec's decisions D2, D3, D5, D16, D17, D26 and D27 (log entry 12). That several consoles or
several roms in one device map each get the whole parameter is the model's choice (log entry 15). -/
def Obligations.ResetFollowsParameters : Prop :=
  ∀ p : ResetParams,
    (p.image.length ≤ 4096 ∧ (p.romImage.getD []).length ≤ 65536 → ∃ s, resetWith p = .ok s ∧
      s.regs = p.regInit ∧ s.pc = 0 ∧ s.mp = 0 ∧ s.alert = false ∧ s.status = .running ∧ s.stack = [] ∧
      (∀ a, s.mem.read a = p.image.getD a 0x00) ∧
      (∀ k : Slot, readSlot k s = (p.deviceMap[k.val]).map (resetDevice p)) ∧ s.Inv) ∧
    (¬ (p.image.length ≤ 4096 ∧ (p.romImage.getD []).length ≤ 65536) → ∃ e, resetWith p = .error e)

/-- After R140, R147 and R151: the devices in their reset state; a rom is present exactly when an image is
given, holds it from address 0 and 0x00 above it. The values are the spec's decisions D15 to D17 (log
entry 12); that each console or rom of a map gets the whole parameter is the model's choice (log entry
15). -/
def Obligations.DevicesAtReset : Prop :=
  ∀ p : ResetParams,
    resetDevice p .console = .console ⟨0, p.consoleIn, []⟩ ∧
    resetDevice p .memExt = .memExt ⟨[], 0⟩ ∧
    (p.romImage = none → resetDevice p .rom = .rom ⟨false, [], 0⟩) ∧
    (∀ image, p.romImage = some image → ∃ mem, resetDevice p .rom = .rom ⟨true, mem, 0⟩ ∧
      ∀ a, mem.read a = image.getD a 0x00)

/-- The table of register use that the spec derives in R12. An instruction changes no register outside its
row's writes; and a register outside its row's reads has no influence on anything but itself: with that
register put out of sight in both results, the instruction answers the same whatever the register held. -/
def Obligations.RegisterUseFollowsTable : Prop :=
  ∀ (i : Instr) (s : State),
    (∀ t, exec i s = .next t → sameRegsBut (regsWritten i) s t) ∧
    (∀ (r : Reg) (v : Word), r ∉ regsRead i →
      mapNext (writeReg r 0) (exec i (writeReg r v s)) = mapNext (writeReg r 0) (exec i s))

/-- Nothing a program does depends on the alert flag (R16, R171): with the flag put out of sight in both
results, a step answers the same whatever the flag was. -/
def Obligations.AlertIsInvisibleToPrograms : Prop :=
  ∀ (s : State) (b : Bool),
    mapNext (fun t => { t with alert := false }) (step { s with alert := b }) =
      mapNext (fun t => { t with alert := false }) (step s)

/-- The alert is sticky: no number of cycles clears it (R16, R171). -/
def Obligations.AlertIsSticky : Prop :=
  ∀ (n : Nat) (s t : State), s.alert = true → runCycles n s = .next t → t.alert = true

/-- No instruction binds, unbinds or moves a device, and a rom's presence and contents never change
(R20, R138, R151), over any number of cycles. -/
def Obligations.BindingsAndRomContentsAreConstant : Prop :=
  ∀ (n : Nat) (s t : State) (k : Slot), runCycles n s = .next t →
    (readSlot k t).map Device.kind = (readSlot k s).map Device.kind ∧
    (readSlot k t).map Device.fixedPart = (readSlot k s).map Device.fixedPart

/-- Memory is written by SPL and READ only (R19). -/
def Obligations.OnlySplAndReadWriteMemory : Prop :=
  ∀ (i : Instr) (s t : State), exec i s = .next t → (∀ x, i ≠ .spl x) → (∀ x n, i ≠ .read x n) → sameMem s t

/-- `mp` is written by SMP and MPAR only (R15). -/
def Obligations.OnlySmpAndMparWriteMp : Prop :=
  ∀ (i : Instr) (s t : State), exec i s = .next t → (∀ a, i ≠ .smp a) → (∀ x, i ≠ .mpar x) → t.mp = s.mp

/-- Only CALL and CALLR push and only RET pops, one entry each (R18). -/
def Obligations.OnlyCallsAndRetMoveStack : Prop :=
  ∀ (i : Instr) (s t : State), exec i s = .next t →
    (t.stack ≠ s.stack → (∃ a, i = .call a) ∨ (∃ x, i = .callr x) ∨ i = .ret) ∧
    ((∃ a, i = .call a) ∨ (∃ x, i = .callr x) → t.stack = s.stack ∨ ∃ v, t.stack = s.stack ++ [v]) ∧
    (i = .ret → t.stack = s.stack ∨ ∃ v, s.stack = t.stack ++ [v])

/-- A device's state changes only inside WRITE, READ, DPS or DPG on its own slot (R132). -/
def Obligations.DevicesActOnlyInTheirOwnSlot : Prop :=
  ∀ (i : Instr) (s t : State) (k : Slot), exec i s = .next t → readSlot k t ≠ readSlot k s →
    (∃ n, i = .write k n) ∨ (∃ n, i = .read k n) ∨ i = .dps k ∨ i = .dpg k

/-- What ends a run (R71): HALT, a call on a full stack, a return on an empty one, or leaving the address
space; an alert by itself ends nothing. What `pc` holds then is the spec's decisions D6 and D7, and that a
stack fault ends as halted is D9 (log entry 12); that a stack is full at 16 entries is D5 (log entry 8), and
a machine with a deeper stack would go on there. -/
def Obligations.RunEndsOnlyAsListed : Prop :=
  ∀ s t : State, s.status = .running → step s = .next t → t.status ≠ .running →
    (t.status = .outOfBounds ∧ t.alert = s.alert ∧ s.pc = 0xFFF) ∨
    (t.status = .outOfBounds ∧ ∃ k, (k = 2 ∨ k = 4) ∧ s.pc.toNat + k ≥ 4096 ∧
      t.pc.toNat = (s.pc.toNat + k) % 4096) ∨
    (t.status = .halted ∧
      ∃ i, decode (joinBytes (s.mem.read s.pc.toNat) (s.mem.read (s.pc.toNat + 1))) = .ok i ∧
        (i = .halt ∨ (i = .ret ∧ s.stack = []) ∨
          (((∃ a, i = .call a) ∨ ∃ x, i = .callr x) ∧ s.stack.length = 16)))

/-- After R198: the terminal status and the exit code as functions of (`status`, `alert`), which is the
spec's decision D21 (log entry 12). -/
def Obligations.TerminalStatusTable : Prop :=
  ∀ s : State,
    (s.status = .running → terminalStatus s = none) ∧
    (s.status = .halted → s.alert = false → terminalStatus s = some .haltedCleanly ∧ exitsWithZero s = true) ∧
    (s.status = .halted → s.alert = true → terminalStatus s = some .haltedWithAlert ∧ exitsWithZero s = false) ∧
    (s.status = .outOfBounds → terminalStatus s = some .outOfBounds ∧ exitsWithZero s = false)

/-- The host's way to place a word is the fetch's inverse: the next step runs the placed instruction,
from any state that satisfies the invariant (log entries 6 and 9). -/
def Obligations.PlacedWordRunsNext : Prop :=
  ∀ (s : State) (i : Instr), s.Inv → i.wellFormed = true →
    step (s.withFetchWord 16 (encode i).toNat) = exec i (s.withFetchWord 16 (encode i).toNat)
end

