-- ==== Sys2Proof/Laws/Memory.lean ====
section
/-! SUPPORT. The memory operations keep the canonical form, a read after a write gives the value
written and every other address is left alone, and canonical memories that read alike are equal. -/

namespace Sys2Proof.Machine

@[simp] theorem Memory.read_nil (a : Nat) : Memory.read [] a = Config.memFill := rfl

/-- A canonical memory lists nothing below its bound. -/
theorem Memory.read_below {size : Nat} : ∀ {lo : Nat} {m : Memory} {a : Nat},
    Memory.wfFrom size lo m = true → a < lo → m.read a = Config.memFill
  | _, [], _, _, _ => rfl
  | lo, (k, b) :: m, a, h, ha => by
    simp only [Memory.wfFrom, Bool.and_eq_true, decide_eq_true_eq] at h
    obtain ⟨⟨⟨h1, h2⟩, h3⟩, h4⟩ := h
    have hk : k ≠ a := by omega
    simp only [Memory.read, hk, if_false]
    exact Memory.read_below h4 (by omega)

theorem Memory.wfFrom_mono {size : Nat} : ∀ {lo lo' : Nat} {m : Memory},
    lo' ≤ lo → Memory.wfFrom size lo m = true → Memory.wfFrom size lo' m = true
  | _, _, [], _, _ => rfl
  | lo, lo', (k, b) :: m, hle, h => by
    simp only [Memory.wfFrom, Bool.and_eq_true, decide_eq_true_eq] at h ⊢
    obtain ⟨⟨⟨h1, h2⟩, h3⟩, h4⟩ := h
    exact ⟨⟨⟨by omega, h2⟩, h3⟩, h4⟩

/-- A write inside the size keeps the canonical form. -/
theorem Memory.write_wfFrom {size : Nat} : ∀ {lo : Nat} {m : Memory} {a : Nat} {v : Byte},
    Memory.wfFrom size lo m = true → lo ≤ a → a < size → Memory.wfFrom size lo (m.write a v) = true
  | lo, [], a, v, _, hlo, ha => by
    by_cases hv : v = Config.memFill <;> simp [Memory.write, Memory.wfFrom, hv, hlo, ha]
  | lo, (k, b) :: m, a, v, h, hlo, ha => by
    have h0 := h
    simp only [Memory.wfFrom, Bool.and_eq_true, decide_eq_true_eq] at h
    obtain ⟨⟨⟨h1, h2⟩, h3⟩, h4⟩ := h
    unfold Memory.write
    split
    · split
      · exact h0
      · simp only [Memory.wfFrom, Bool.and_eq_true, decide_eq_true_eq]
        exact ⟨⟨⟨hlo, ha⟩, by assumption⟩, ⟨⟨⟨by omega, h2⟩, h3⟩, h4⟩⟩
    · split
      · split
        · exact Memory.wfFrom_mono (by omega) h4
        · subst a
          simp only [Memory.wfFrom, Bool.and_eq_true, decide_eq_true_eq]
          exact ⟨⟨⟨hlo, ha⟩, by assumption⟩, h4⟩
      · simp only [Memory.wfFrom, Bool.and_eq_true, decide_eq_true_eq]
        exact ⟨⟨⟨h1, h2⟩, h3⟩, Memory.write_wfFrom h4 (by omega) ha⟩

theorem Memory.write_wf {size : Nat} {m : Memory} {a : Nat} (v : Byte) (h : m.wf size = true) (ha : a < size) :
    (m.write a v).wf size = true := Memory.write_wfFrom h (Nat.zero_le a) ha

/-- The canonical form of the bytes from an address on. -/
theorem Memory.ofBytes_wfFrom {size : Nat} : ∀ {a : Nat} {bs : List Byte},
    a + bs.length ≤ size → Memory.wfFrom size a (Memory.ofBytes a bs) = true
  | _, [], _ => rfl
  | a, b :: bs, h => by
    simp only [List.length_cons] at h
    have ih := Memory.ofBytes_wfFrom (size := size) (a := a + 1) (bs := bs) (by omega)
    unfold Memory.ofBytes
    split
    · exact Memory.wfFrom_mono (by omega) ih
    · simp only [Memory.wfFrom, Bool.and_eq_true, decide_eq_true_eq]
      exact ⟨⟨⟨by omega, by omega⟩, by assumption⟩, ih⟩

theorem Memory.ofBytes_wf {size : Nat} {bs : List Byte} (h : bs.length ≤ size) :
    (Memory.ofBytes 0 bs).wf size = true := Memory.ofBytes_wfFrom (by omega)

/-- The bytes from an address on read back, and every other address reads as the fill. -/
theorem Memory.read_ofBytes : ∀ (a : Nat) (bs : List Byte) (c : Nat),
    (Memory.ofBytes a bs).read c = if a ≤ c then bs.getD (c - a) Config.memFill else Config.memFill
  | a, [], c => by simp [Memory.ofBytes]
  | a, b :: bs, c => by
    have ih := Memory.read_ofBytes (a + 1) bs c
    by_cases hac : a = c
    · subst hac
      by_cases hb : b = Config.memFill <;> simp [Memory.ofBytes, Memory.read, hb, ih]
    · by_cases hle : a ≤ c
      · obtain ⟨d, rfl⟩ : ∃ d, c = a + (d + 1) := ⟨c - a - 1, by omega⟩
        have e1 : a + (d + 1) - (a + 1) = d := by omega
        have e2 : a + (d + 1) - a = d + 1 := by omega
        by_cases hb : b = Config.memFill <;> simp_all [Memory.ofBytes, Memory.read]
      · have h1 : ¬ a + 1 ≤ c := by omega
        by_cases hb : b = Config.memFill <;> simp_all [Memory.ofBytes, Memory.read]

/-- A read after a write: the value written at that address, the old byte at every other. -/
theorem Memory.read_write {size : Nat} : ∀ {lo : Nat} {m : Memory} (a : Nat) (v : Byte) (c : Nat),
    Memory.wfFrom size lo m = true → (m.write a v).read c = if c = a then v else m.read c
  | lo, [], a, v, c, _ => by
    by_cases hv : v = Config.memFill <;> by_cases hc : c = a <;>
      simp [Memory.write, Memory.read, hv, hc, eq_comm]
    exact fun h => absurd h.symm hc
  | lo, (k, b) :: m, a, v, c, h => by
    have h0 := h
    simp only [Memory.wfFrom, Bool.and_eq_true, decide_eq_true_eq] at h
    obtain ⟨⟨⟨h1, h2⟩, h3⟩, h4⟩ := h
    have hbelow : ∀ x, x < k + 1 → Memory.read m x = Config.memFill := fun x hx => Memory.read_below h4 hx
    unfold Memory.write
    by_cases hak : a < k
    · rw [if_pos hak]
      by_cases hca : c = a
      · subst hca
        by_cases hv : v = Config.memFill
        · simp [hv, Memory.read, Nat.ne_of_gt hak, hbelow c (by omega)]
        · simp [hv, Memory.read]
      · by_cases hv : v = Config.memFill <;> simp [hv, hca, Memory.read, Ne.symm hca]
    · rw [if_neg hak]
      by_cases hk : a = k
      · subst hk
        by_cases hca : c = a
        · subst hca
          by_cases hv : v = Config.memFill <;> simp [hv, Memory.read, hbelow c (by omega)]
        · by_cases hv : v = Config.memFill <;> simp [hv, hca, Memory.read, Ne.symm hca]
      · rw [if_neg hk]
        have ih := Memory.read_write a v c h4
        by_cases hck : k = c
        · subst hck; simp [Memory.read, Ne.symm hk]
        · simp [Memory.read, hck, ih]

/-- A write leaves every other address alone, in any memory. -/
theorem Memory.read_write_other : ∀ (m : Memory) (a : Nat) (v : Byte) (c : Nat),
    c ≠ a → (m.write a v).read c = m.read c
  | [], a, v, c, hc => by
    by_cases hv : v = Config.memFill <;> simp [Memory.write, Memory.read, hv, Ne.symm hc]
  | (k, b) :: m, a, v, c, hc => by
    have ih := Memory.read_write_other m a v c hc
    unfold Memory.write
    split
    · split <;> simp [Memory.read, Ne.symm hc]
    · split
      · rename_i hk
        have hkc : k ≠ c := fun h => hc (h.symm.trans hk.symm)
        split <;> simp [Memory.read, Ne.symm hc, hkc]
      · simp [Memory.read, ih]

/-- Outside its size a canonical memory reads as the fill. -/
theorem Memory.read_above {size : Nat} : ∀ {lo : Nat} {m : Memory} {a : Nat},
    Memory.wfFrom size lo m = true → size ≤ a → m.read a = Config.memFill
  | _, [], _, _, _ => rfl
  | lo, (k, b) :: m, a, h, ha => by
    simp only [Memory.wfFrom, Bool.and_eq_true, decide_eq_true_eq] at h
    obtain ⟨⟨⟨h1, h2⟩, h3⟩, h4⟩ := h
    have hk : k ≠ a := by omega
    simp only [Memory.read, hk, if_false]
    exact Memory.read_above h4 ha

/-- Canonical memories that read alike are the same list. -/
theorem Memory.ext_of_wfFrom {size : Nat} : ∀ {lo : Nat} {m m' : Memory},
    Memory.wfFrom size lo m = true → Memory.wfFrom size lo m' = true → (∀ a, m.read a = m'.read a) → m = m'
  | _, [], [], _, _, _ => rfl
  | lo, [], (k, b) :: m', _, h', heq => by
    simp only [Memory.wfFrom, Bool.and_eq_true, decide_eq_true_eq] at h'
    have := heq k
    simp [Memory.read] at this
    exact absurd this.symm h'.1.2
  | lo, (k, b) :: m, [], h, _, heq => by
    simp only [Memory.wfFrom, Bool.and_eq_true, decide_eq_true_eq] at h
    have := heq k
    simp [Memory.read] at this
    exact absurd this h.1.2
  | lo, (k, b) :: m, (k', b') :: m', h, h', heq => by
    simp only [Memory.wfFrom, Bool.and_eq_true, decide_eq_true_eq] at h h'
    obtain ⟨⟨⟨_, _⟩, hb⟩, hm⟩ := h
    obtain ⟨⟨⟨_, _⟩, hb'⟩, hm'⟩ := h'
    have e1 := heq k
    have e2 := heq k'
    rcases Nat.lt_trichotomy k k' with hlt | heqk | hgt
    · simp [Memory.read, Nat.ne_of_gt hlt, Memory.read_below hm' (show k < k' + 1 by omega)] at e1
      exact absurd e1 hb
    · subst heqk
      simp [Memory.read] at e1
      subst e1
      have : m = m' := Memory.ext_of_wfFrom hm hm' (fun a => by
        by_cases hka : k = a
        · subst hka; rw [Memory.read_below hm (by omega), Memory.read_below hm' (by omega)]
        · have := heq a
          simpa [Memory.read, hka] using this)
      rw [this]
    · simp [Memory.read, Nat.ne_of_gt hgt, Memory.read_below hm (show k' < k + 1 by omega)] at e2
      exact absurd e2.symm hb'

theorem Memory.ext_of_wf {size : Nat} {m m' : Memory} (h : m.wf size = true) (h' : m'.wf size = true)
    (heq : ∀ a, m.read a = m'.read a) : m = m' := Memory.ext_of_wfFrom h h' heq

/-- The memory after reset has the canonical form. -/
theorem State.reset_mem_wf : State.reset.mem.wf Config.memSize = true := rfl

end Sys2Proof.Machine
end

