-- ==== Sys2Proof/Laws/Devices.lean ====
section
/-! SUPPORT. The device operations: the contract's bound on a read, well-formedness, what never
changes, and numbers as bytes. -/

namespace Sys2Proof.Machine

/-! ## Numbers as bytes (46_standard_devices.md R141, R143) -/

@[simp] theorem natToBytes_length : ∀ (n v : Nat), (natToBytes n v).length = n
  | 0, _ => rfl
  | n + 1, v => by simp [natToBytes, natToBytes_length n v]

@[simp] theorem bytesToNat_nil : bytesToNat [] = 0 := rfl

theorem bytesToNat_foldl : ∀ (bs : List Byte) (v : Nat),
    bs.foldl (fun v b => v * 256 + b.toNat) v = v * 256 ^ bs.length + bytesToNat bs
  | [], v => by simp
  | b :: bs, v => by
    simp only [List.foldl_cons, List.length_cons, bytesToNat]
    rw [bytesToNat_foldl bs, bytesToNat_foldl bs (0 * 256 + b.toNat)]
    ring

theorem bytesToNat_cons (b : Byte) (bs : List Byte) :
    bytesToNat (b :: bs) = b.toNat * 256 ^ bs.length + bytesToNat bs := by
  have := bytesToNat_foldl bs (0 * 256 + b.toNat)
  simpa [bytesToNat] using this

/-- The machine's fold is the weighted sum that R141 writes out. -/
theorem bytesToNat_eq_bigEndian : ∀ bs : List Byte, bytesToNat bs = bigEndian bs
  | [] => rfl
  | b :: bs => by rw [bytesToNat_cons, bytesToNat_eq_bigEndian bs]; rfl

/-! ## Device memories -/

@[simp] theorem deviceBytes_length : ∀ (mem : Memory) (p : Word) (n : Nat), (deviceBytes mem p n).length = n
  | _, _, 0 => rfl
  | mem, p, n + 1 => by simpa [deviceBytes] using deviceBytes_length mem (p + 1) n

theorem memExtStore_wf : ∀ (bs : List Byte) (m : MemExt),
    m.mem.wf Config.deviceMemSize = true → (memExtStore bs m).mem.wf Config.deviceMemSize = true
  | [], _, h => h
  | b :: bs, m, h => memExtStore_wf bs _ (Memory.write_wf b h m.ptr.isLt)

theorem memExtStore_ptr : ∀ (bs : List Byte) (m : MemExt),
    (memExtStore bs m).ptr = m.ptr + BitVec.ofNat 16 bs.length
  | [], m => by simp [memExtStore]
  | b :: bs, m => by
    simp only [memExtStore, memExtStore_ptr bs, List.length_cons, BitVec.add_assoc]
    congr 1
    apply BitVec.eq_of_toNat_eq
    simp [Nat.add_comm]

/-! ## The contract (45_device_bus.md R131) -/

/-- A read returns at most the bytes asked for. -/
theorem deviceRead_length_le (d : Device) (n : Nat) : (deviceRead d n).value.length ≤ n := by
  cases d with
  | console c =>
    simp only [deviceRead, liftReply, consoleRead]
    split
    · simp
    · split <;> simp
  | memExt m => simp [deviceRead, liftReply, memExtRead]
  | rom r =>
    simp only [deviceRead, liftReply, romRead]
    split <;> simp
  | fpArith f =>
    simp only [deviceRead, liftReply, fpRead, boundRead]
    split <;> simp
  | user u =>
    simp only [deviceRead, liftReply, userRead, boundRead]
    split <;> simp

/-- A failing read returns zero bytes. -/
theorem deviceRead_fault_nil (d : Device) (n : Nat) (h : (deviceRead d n).fault = true) :
    (deviceRead d n).value = [] := by
  cases d with
  | console c =>
    simp only [deviceRead, liftReply, consoleRead] at h ⊢
    split at h
    · rfl
    · split at h
      · simp_all
      · simp at h
  | memExt m => simp [deviceRead, liftReply, memExtRead] at h
  | rom r =>
    simp only [deviceRead, liftReply, romRead] at h ⊢
    split at h <;> simp_all
  | fpArith f => simp_all [deviceRead, liftReply, fpRead, boundRead]
  | user u => simp_all [deviceRead, liftReply, userRead, boundRead]

/-! ## Well-formedness -/

theorem deviceWrite_wf (d : Device) (bs : List Byte) (h : d.wf = true) : (deviceWrite d bs).state.wf = true := by
  cases d with
  | memExt m => exact memExtStore_wf bs m h
  | rom r => exact h
  | console _ => rfl
  | fpArith _ => rfl
  | user _ => rfl

theorem deviceRead_wf (d : Device) (n : Nat) (h : d.wf = true) : (deviceRead d n).state.wf = true := by
  cases d with
  | memExt m => exact h
  | rom r =>
    simp only [deviceRead, liftReply, romRead]
    split <;> exact h
  | console _ => rfl
  | fpArith _ => rfl
  | user _ => rfl

theorem deviceSetPointer_wf (d : Device) (v : Word) (h : d.wf = true) : (deviceSetPointer d v).state.wf = true := by
  cases d with
  | memExt m => exact h
  | rom r => exact h
  | console _ => rfl
  | fpArith _ => rfl
  | user _ => rfl

theorem deviceGetPointer_wf (d : Device) (h : d.wf = true) : (deviceGetPointer d).state.wf = true := by
  cases d with
  | memExt m => exact h
  | rom r => exact h
  | console _ => rfl
  | fpArith _ => rfl
  | user _ => rfl

/-! ## What a device operation never changes: the binding and a rom's contents -/

theorem deviceWrite_fixed (d : Device) (bs : List Byte) :
    (deviceWrite d bs).state.kind = d.kind ∧ (deviceWrite d bs).state.fixedPart = d.fixedPart := by
  cases d <;> exact ⟨rfl, rfl⟩

theorem deviceRead_fixed (d : Device) (n : Nat) :
    (deviceRead d n).state.kind = d.kind ∧ (deviceRead d n).state.fixedPart = d.fixedPart := by
  cases d with
  | rom r =>
    simp only [deviceRead, liftReply, romRead]
    split <;> exact ⟨rfl, rfl⟩
  | console _ => exact ⟨rfl, rfl⟩
  | memExt _ => exact ⟨rfl, rfl⟩
  | fpArith _ => exact ⟨rfl, rfl⟩
  | user _ => exact ⟨rfl, rfl⟩

theorem deviceSetPointer_fixed (d : Device) (v : Word) :
    (deviceSetPointer d v).state.kind = d.kind ∧ (deviceSetPointer d v).state.fixedPart = d.fixedPart := by
  cases d <;> exact ⟨rfl, rfl⟩

theorem deviceGetPointer_fixed (d : Device) :
    (deviceGetPointer d).state.kind = d.kind ∧ (deviceGetPointer d).state.fixedPart = d.fixedPart := by
  cases d <;> exact ⟨rfl, rfl⟩

/-! ## Reset (70_reset_and_hazards.md R190) -/

/-- The reset with the default parameters is `State.reset`. -/
theorem resetWith_default : resetWith ResetParams.default = .ok State.reset := by decide

end Sys2Proof.Machine
end

