-- ==== Sys2Proof/Laws/Encoding.lean ====
section
/-! SUPPORT. The fields of the formats, and the bits that the masks of the opcode map keep
(spec 30_encoding.md R51, R52, R55), all through the number a word stands for. -/

namespace Sys2Proof

/-- A concatenation as a number. -/
theorem append_toNat {n m : Nat} (a : BitVec n) (b : BitVec m) : (a ++ b).toNat = a.toNat * 2 ^ m + b.toNat := by
  rw [BitVec.toNat_append, Nat.shiftLeft_eq, Nat.mul_comm, ← Nat.two_pow_add_eq_or_of_lt b.isLt]

theorem formatA_toNat (p : BitVec 4) (nnn : Addr) : (formatA p nnn).toNat = p.toNat * 4096 + nnn.toNat :=
  append_toNat p nnn

theorem highByte_toNat (p : BitVec 4) (x : Fin 16) : (p ++ nibble x : BitVec 8).toNat = p.toNat * 16 + x.val :=
  append_toNat p (nibble x)

theorem formatI_toNat (p : BitVec 4) (x : Fin 16) (nn : Byte) :
    (formatI p x nn).toNat = p.toNat * 4096 + x.val * 256 + nn.toNat := by
  have h : (formatI p x nn).toNat = (p ++ nibble x : BitVec 8).toNat * 2 ^ 8 + nn.toNat := append_toNat _ nn
  rw [h, highByte_toNat]
  omega

/-- A low byte made of two fields, as a number. -/
theorem lowByte_toNat (y q : BitVec 4) : (y ++ q : BitVec 8).toNat = y.toNat * 16 + q.toNat := append_toNat y q

/-- Format R is format I with the low byte made of two fields. -/
theorem formatR_eq (p : BitVec 4) (x y : Fin 16) (q : BitVec 4) :
    formatR p x y q = formatI p x (nibble y ++ q : BitVec 8) := rfl

theorem formatShift_eq (p : BitVec 4) (x : Fin 16) (count : Nat) (q : BitVec 4) :
    formatShift p x count q = formatI p x (BitVec.ofNat 4 count ++ q : BitVec 8) := rfl

theorem fieldP_toNat (w : Word) : (fieldP w).toNat = w.toNat / 4096 := by
  have := w.isLt
  simp [fieldP, BitVec.extractLsb'_toNat, Nat.shiftRight_eq_div_pow]; omega

theorem fieldX_val (w : Word) : (fieldX w).val = w.toNat / 256 % 16 := by
  simp [fieldX, Nat.shiftRight_eq_div_pow]

theorem fieldY_val (w : Word) : (fieldY w).val = w.toNat / 16 % 16 := by
  simp [fieldY, Nat.shiftRight_eq_div_pow]

theorem fieldQ_toNat (w : Word) : (fieldQ w).toNat = w.toNat % 16 := by
  simp [fieldQ, BitVec.extractLsb'_toNat]

theorem fieldNN_toNat (w : Word) : (fieldNN w).toNat = w.toNat % 256 := by
  simp [fieldNN, BitVec.extractLsb'_toNat]

theorem fieldNNN_toNat (w : Word) : (fieldNNN w).toNat = w.toNat % 4096 := by
  simp [fieldNNN, BitVec.extractLsb'_toNat]

/-! ## Fields of the formats -/

theorem fieldP_formatA (p : BitVec 4) (nnn : Addr) : fieldP (formatA p nnn) = p := by
  have := nnn.isLt
  apply BitVec.eq_of_toNat_eq
  rw [fieldP_toNat, formatA_toNat]; omega

theorem fieldNNN_formatA (p : BitVec 4) (nnn : Addr) : fieldNNN (formatA p nnn) = nnn := by
  have := nnn.isLt
  apply BitVec.eq_of_toNat_eq
  rw [fieldNNN_toNat, formatA_toNat]; omega

theorem fieldP_formatI (p : BitVec 4) (x : Fin 16) (nn : Byte) : fieldP (formatI p x nn) = p := by
  have := nn.isLt; have := x.isLt
  apply BitVec.eq_of_toNat_eq
  rw [fieldP_toNat, formatI_toNat]; omega

theorem fieldX_formatI (p : BitVec 4) (x : Fin 16) (nn : Byte) : fieldX (formatI p x nn) = x := by
  have := nn.isLt; have := x.isLt
  apply Fin.ext
  rw [fieldX_val, formatI_toNat]; omega

theorem fieldNN_formatI (p : BitVec 4) (x : Fin 16) (nn : Byte) : fieldNN (formatI p x nn) = nn := by
  have := nn.isLt
  apply BitVec.eq_of_toNat_eq
  rw [fieldNN_toNat, formatI_toNat]; omega

theorem fieldQ_formatI (p : BitVec 4) (x : Fin 16) (y q : BitVec 4) :
    fieldQ (formatI p x (y ++ q : BitVec 8)) = q := by
  have := q.isLt
  apply BitVec.eq_of_toNat_eq
  rw [fieldQ_toNat, formatI_toNat, lowByte_toNat]; omega

theorem fieldY_formatI (p : BitVec 4) (x : Fin 16) (y q : BitVec 4) :
    fieldY (formatI p x (y ++ q : BitVec 8)) = y.toFin := by
  have := q.isLt; have := y.isLt
  apply Fin.ext
  rw [fieldY_val, formatI_toNat, lowByte_toNat]
  show _ = y.toNat
  omega

/-! ## Masks -/

/-- AND on numbers cut at a bit position. -/
theorem land_split {k a b c d : Nat} (hb : b < 2 ^ k) (hd : d < 2 ^ k) :
    (2 ^ k * a + b) &&& (2 ^ k * c + d) = 2 ^ k * (a &&& c) + (b &&& d) := by
  apply Nat.eq_of_testBit_eq
  intro j
  have hbd : b &&& d < 2 ^ k := Nat.and_lt_two_pow b hd
  rw [Nat.testBit_and, Nat.testBit_two_pow_mul_add _ hb, Nat.testBit_two_pow_mul_add _ hd,
    Nat.testBit_two_pow_mul_add _ hbd]
  split <;> rw [Nat.testBit_and]

theorem land_15 (n : Nat) : n &&& 15 = n % 16 := Nat.and_two_pow_sub_one_eq_mod n 4

theorem land_255 (n : Nat) : n &&& 255 = n % 256 := Nat.and_two_pow_sub_one_eq_mod n 8

theorem and_maskP_toNat (w : Word) : (w &&& 0xF000#16).toNat = w.toNat / 4096 * 4096 := by
  have hw := w.isLt
  have h := land_split (k := 12) (a := w.toNat / 4096) (b := w.toNat % 4096) (c := 15) (d := 0)
    (by omega) (by omega)
  rw [show 2 ^ 12 * (w.toNat / 4096) + w.toNat % 4096 = w.toNat by omega, land_15, Nat.and_zero] at h
  rw [BitVec.toNat_and]
  exact h.trans (by omega)

theorem and_maskPQ_toNat (w : Word) : (w &&& 0xF00F#16).toNat = w.toNat / 4096 * 4096 + w.toNat % 16 := by
  have hw := w.isLt
  have h := land_split (k := 12) (a := w.toNat / 4096) (b := w.toNat % 4096) (c := 15) (d := 15)
    (by omega) (by omega)
  rw [show 2 ^ 12 * (w.toNat / 4096) + w.toNat % 4096 = w.toNat by omega, land_15, land_15] at h
  rw [BitVec.toNat_and]
  exact h.trans (by omega)

theorem and_maskPRR_toNat (w : Word) : (w &&& 0xF0FF#16).toNat = w.toNat / 4096 * 4096 + w.toNat % 256 := by
  have hw := w.isLt
  have h := land_split (k := 12) (a := w.toNat / 4096) (b := w.toNat % 4096) (c := 15) (d := 255)
    (by omega) (by omega)
  rw [show 2 ^ 12 * (w.toNat / 4096) + w.toNat % 4096 = w.toNat by omega, land_15, land_255] at h
  rw [BitVec.toNat_and]
  exact h.trans (by omega)

end Sys2Proof
end

