-- ==== Sys2Proof/Laws/State.lean ====
section
/-! SUPPORT. What each state update leaves in each field, and how registers and slots read after
it. Later proofs cite these and do not unfold a record update. -/

namespace Sys2Proof.Machine

@[simp] theorem writeReg_regs (r : Reg) (v : Word) (s : State) : (writeReg r v s).regs = s.regs.set r.val v := rfl
@[simp] theorem writeReg_pc (r : Reg) (v : Word) (s : State) : (writeReg r v s).pc = s.pc := rfl
@[simp] theorem writeReg_mp (r : Reg) (v : Word) (s : State) : (writeReg r v s).mp = s.mp := rfl
@[simp] theorem writeReg_alert (r : Reg) (v : Word) (s : State) : (writeReg r v s).alert = s.alert := rfl
@[simp] theorem writeReg_status (r : Reg) (v : Word) (s : State) : (writeReg r v s).status = s.status := rfl
@[simp] theorem writeReg_stack (r : Reg) (v : Word) (s : State) : (writeReg r v s).stack = s.stack := rfl
@[simp] theorem writeReg_mem (r : Reg) (v : Word) (s : State) : (writeReg r v s).mem = s.mem := rfl
@[simp] theorem writeReg_dev (r : Reg) (v : Word) (s : State) : (writeReg r v s).dev = s.dev := rfl
@[simp] theorem writeReg_draws (r : Reg) (v : Word) (s : State) : (writeReg r v s).draws = s.draws := rfl

@[simp] theorem jump_regs (a : Addr) (s : State) : (jump a s).regs = s.regs := rfl
@[simp] theorem jump_pc (a : Addr) (s : State) : (jump a s).pc = a := rfl
@[simp] theorem jump_mp (a : Addr) (s : State) : (jump a s).mp = s.mp := rfl
@[simp] theorem jump_alert (a : Addr) (s : State) : (jump a s).alert = s.alert := rfl
@[simp] theorem jump_status (a : Addr) (s : State) : (jump a s).status = s.status := rfl
@[simp] theorem jump_stack (a : Addr) (s : State) : (jump a s).stack = s.stack := rfl
@[simp] theorem jump_mem (a : Addr) (s : State) : (jump a s).mem = s.mem := rfl
@[simp] theorem jump_dev (a : Addr) (s : State) : (jump a s).dev = s.dev := rfl
@[simp] theorem jump_draws (a : Addr) (s : State) : (jump a s).draws = s.draws := rfl

@[simp] theorem putDevice_regs (k : Slot) (d : Device) (s : State) : (putDevice k d s).regs = s.regs := rfl
@[simp] theorem putDevice_pc (k : Slot) (d : Device) (s : State) : (putDevice k d s).pc = s.pc := rfl
@[simp] theorem putDevice_mp (k : Slot) (d : Device) (s : State) : (putDevice k d s).mp = s.mp := rfl
@[simp] theorem putDevice_alert (k : Slot) (d : Device) (s : State) : (putDevice k d s).alert = s.alert := rfl
@[simp] theorem putDevice_status (k : Slot) (d : Device) (s : State) : (putDevice k d s).status = s.status := rfl
@[simp] theorem putDevice_stack (k : Slot) (d : Device) (s : State) : (putDevice k d s).stack = s.stack := rfl
@[simp] theorem putDevice_mem (k : Slot) (d : Device) (s : State) : (putDevice k d s).mem = s.mem := rfl
@[simp] theorem putDevice_dev (k : Slot) (d : Device) (s : State) : (putDevice k d s).dev = s.dev.set k.val (some d) := rfl
@[simp] theorem putDevice_draws (k : Slot) (d : Device) (s : State) : (putDevice k d s).draws = s.draws := rfl

@[simp] theorem setFlag_regs (f : Bool) (s : State) : (setFlag f s).regs = s.regs.set 15 (flagWord f) := rfl
@[simp] theorem setFlag_pc (f : Bool) (s : State) : (setFlag f s).pc = s.pc := rfl
@[simp] theorem setFlag_mp (f : Bool) (s : State) : (setFlag f s).mp = s.mp := rfl
@[simp] theorem setFlag_alert (f : Bool) (s : State) : (setFlag f s).alert = s.alert := rfl
@[simp] theorem setFlag_status (f : Bool) (s : State) : (setFlag f s).status = s.status := rfl
@[simp] theorem setFlag_stack (f : Bool) (s : State) : (setFlag f s).stack = s.stack := rfl
@[simp] theorem setFlag_mem (f : Bool) (s : State) : (setFlag f s).mem = s.mem := rfl
@[simp] theorem setFlag_dev (f : Bool) (s : State) : (setFlag f s).dev = s.dev := rfl
@[simp] theorem setFlag_draws (f : Bool) (s : State) : (setFlag f s).draws = s.draws := rfl

@[simp] theorem writeResultThenFlag_regs (x : Reg) (v : Word) (f : Bool) (s : State) : (writeResultThenFlag x v f s).regs = (s.regs.set x.val v).set 15 (flagWord f) := rfl
@[simp] theorem writeResultThenFlag_pc (x : Reg) (v : Word) (f : Bool) (s : State) : (writeResultThenFlag x v f s).pc = s.pc := rfl
@[simp] theorem writeResultThenFlag_mp (x : Reg) (v : Word) (f : Bool) (s : State) : (writeResultThenFlag x v f s).mp = s.mp := rfl
@[simp] theorem writeResultThenFlag_alert (x : Reg) (v : Word) (f : Bool) (s : State) : (writeResultThenFlag x v f s).alert = s.alert := rfl
@[simp] theorem writeResultThenFlag_status (x : Reg) (v : Word) (f : Bool) (s : State) : (writeResultThenFlag x v f s).status = s.status := rfl
@[simp] theorem writeResultThenFlag_stack (x : Reg) (v : Word) (f : Bool) (s : State) : (writeResultThenFlag x v f s).stack = s.stack := rfl
@[simp] theorem writeResultThenFlag_mem (x : Reg) (v : Word) (f : Bool) (s : State) : (writeResultThenFlag x v f s).mem = s.mem := rfl
@[simp] theorem writeResultThenFlag_dev (x : Reg) (v : Word) (f : Bool) (s : State) : (writeResultThenFlag x v f s).dev = s.dev := rfl
@[simp] theorem writeResultThenFlag_draws (x : Reg) (v : Word) (f : Bool) (s : State) : (writeResultThenFlag x v f s).draws = s.draws := rfl

@[simp] theorem raise_regs (e : Exc) (s : State) : (raise e s).regs = s.regs := by cases e <;> rfl
@[simp] theorem raise_pc (e : Exc) (s : State) : (raise e s).pc = s.pc := by cases e <;> rfl
@[simp] theorem raise_mp (e : Exc) (s : State) : (raise e s).mp = s.mp := by cases e <;> rfl
@[simp] theorem raise_stack (e : Exc) (s : State) : (raise e s).stack = s.stack := by cases e <;> rfl
@[simp] theorem raise_mem (e : Exc) (s : State) : (raise e s).mem = s.mem := by cases e <;> rfl
@[simp] theorem raise_dev (e : Exc) (s : State) : (raise e s).dev = s.dev := by cases e <;> rfl
@[simp] theorem raise_draws (e : Exc) (s : State) : (raise e s).draws = s.draws := by cases e <;> rfl

@[simp] theorem advance_regs (k : Nat) (s : State) : (advance k s).regs = s.regs := by unfold advance; dsimp only; split <;> rfl
@[simp] theorem advance_mp (k : Nat) (s : State) : (advance k s).mp = s.mp := by unfold advance; dsimp only; split <;> rfl
@[simp] theorem advance_alert (k : Nat) (s : State) : (advance k s).alert = s.alert := by unfold advance; dsimp only; split <;> rfl
@[simp] theorem advance_stack (k : Nat) (s : State) : (advance k s).stack = s.stack := by unfold advance; dsimp only; split <;> rfl
@[simp] theorem advance_mem (k : Nat) (s : State) : (advance k s).mem = s.mem := by unfold advance; dsimp only; split <;> rfl
@[simp] theorem advance_dev (k : Nat) (s : State) : (advance k s).dev = s.dev := by unfold advance; dsimp only; split <;> rfl
@[simp] theorem advance_draws (k : Nat) (s : State) : (advance k s).draws = s.draws := by unfold advance; dsimp only; split <;> rfl

@[simp] theorem checkRange_regs (n : Nat) (s : State) : (checkRange n s).regs = s.regs := by unfold checkRange; split <;> rfl
@[simp] theorem checkRange_pc (n : Nat) (s : State) : (checkRange n s).pc = s.pc := by unfold checkRange; split <;> rfl
@[simp] theorem checkRange_mp (n : Nat) (s : State) : (checkRange n s).mp = s.mp := by unfold checkRange; split <;> rfl
@[simp] theorem checkRange_status (n : Nat) (s : State) : (checkRange n s).status = s.status := by unfold checkRange; split <;> rfl
@[simp] theorem checkRange_stack (n : Nat) (s : State) : (checkRange n s).stack = s.stack := by unfold checkRange; split <;> rfl
@[simp] theorem checkRange_mem (n : Nat) (s : State) : (checkRange n s).mem = s.mem := by unfold checkRange; split <;> rfl
@[simp] theorem checkRange_dev (n : Nat) (s : State) : (checkRange n s).dev = s.dev := by unfold checkRange; split <;> rfl
@[simp] theorem checkRange_draws (n : Nat) (s : State) : (checkRange n s).draws = s.draws := by unfold checkRange; split <;> rfl

@[simp] theorem settle_regs {α : Type} (k : Slot) (r : Reply Device α) (s : State) : (settle k r s).regs = s.regs := by unfold settle; split <;> rfl
@[simp] theorem settle_pc {α : Type} (k : Slot) (r : Reply Device α) (s : State) : (settle k r s).pc = s.pc := by unfold settle; split <;> rfl
@[simp] theorem settle_mp {α : Type} (k : Slot) (r : Reply Device α) (s : State) : (settle k r s).mp = s.mp := by unfold settle; split <;> rfl
@[simp] theorem settle_status {α : Type} (k : Slot) (r : Reply Device α) (s : State) : (settle k r s).status = s.status := by unfold settle; split <;> rfl
@[simp] theorem settle_stack {α : Type} (k : Slot) (r : Reply Device α) (s : State) : (settle k r s).stack = s.stack := by unfold settle; split <;> rfl
@[simp] theorem settle_mem {α : Type} (k : Slot) (r : Reply Device α) (s : State) : (settle k r s).mem = s.mem := by unfold settle; split <;> rfl
@[simp] theorem settle_dev {α : Type} (k : Slot) (r : Reply Device α) (s : State) : (settle k r s).dev = s.dev.set k.val (some r.state) := by unfold settle; split <;> rfl
@[simp] theorem settle_draws {α : Type} (k : Slot) (r : Reply Device α) (s : State) : (settle k r s).draws = s.draws := by unfold settle; split <;> rfl

@[simp] theorem skipWhen_regs (c : Bool) (s : State) : (skipWhen c s).regs = s.regs := by unfold skipWhen; split <;> simp
@[simp] theorem skipWhen_mp (c : Bool) (s : State) : (skipWhen c s).mp = s.mp := by unfold skipWhen; split <;> simp
@[simp] theorem skipWhen_alert (c : Bool) (s : State) : (skipWhen c s).alert = s.alert := by unfold skipWhen; split <;> simp
@[simp] theorem skipWhen_stack (c : Bool) (s : State) : (skipWhen c s).stack = s.stack := by unfold skipWhen; split <;> simp
@[simp] theorem skipWhen_mem (c : Bool) (s : State) : (skipWhen c s).mem = s.mem := by unfold skipWhen; split <;> simp
@[simp] theorem skipWhen_dev (c : Bool) (s : State) : (skipWhen c s).dev = s.dev := by unfold skipWhen; split <;> simp
@[simp] theorem skipWhen_draws (c : Bool) (s : State) : (skipWhen c s).draws = s.draws := by unfold skipWhen; split <;> simp

/-! ## alert and status after an exception (60_exceptions.md R170, R171) -/

@[simp] theorem raise_illegalOpcode_alert (w : Word) (s : State) : (raise (.illegalOpcode w) s).alert = true := rfl
@[simp] theorem raise_stackOverflow_alert (s : State) : (raise .stackOverflow s).alert = true := rfl
@[simp] theorem raise_stackUnderflow_alert (s : State) : (raise .stackUnderflow s).alert = true := rfl
@[simp] theorem raise_pcOutOfBounds_alert (s : State) : (raise .pcOutOfBounds s).alert = s.alert := rfl
@[simp] theorem raise_deviceAbsent_alert (k : Slot) (s : State) : (raise (.deviceAbsent k) s).alert = true := rfl
@[simp] theorem raise_deviceFault_alert (k : Slot) (s : State) : (raise (.deviceFault k) s).alert = true := rfl
@[simp] theorem raise_rangeTruncated_alert (a : Addr) (n : Nat) (s : State) :
    (raise (.rangeTruncated a n) s).alert = true := rfl
@[simp] theorem raise_illegalOpcode_status (w : Word) (s : State) :
    (raise (.illegalOpcode w) s).status = s.status := rfl
@[simp] theorem raise_stackOverflow_status (s : State) : (raise .stackOverflow s).status = .halted := rfl
@[simp] theorem raise_stackUnderflow_status (s : State) : (raise .stackUnderflow s).status = .halted := rfl
@[simp] theorem raise_pcOutOfBounds_status (s : State) : (raise .pcOutOfBounds s).status = .outOfBounds := rfl
@[simp] theorem raise_deviceAbsent_status (k : Slot) (s : State) :
    (raise (.deviceAbsent k) s).status = s.status := rfl
@[simp] theorem raise_deviceFault_status (k : Slot) (s : State) :
    (raise (.deviceFault k) s).status = s.status := rfl
@[simp] theorem raise_rangeTruncated_status (a : Addr) (n : Nat) (s : State) :
    (raise (.rangeTruncated a n) s).status = s.status := rfl

/-- Every exception but `PcOutOfBounds` leaves the alert set, and that one leaves it alone. -/
theorem raise_alert (e : Exc) (s : State) : (raise e s).alert = if e = .pcOutOfBounds then s.alert else true := by
  cases e <;> rfl

@[simp] theorem checkRange_alert (n : Nat) (s : State) : (checkRange n s).alert = (s.alert || passesTop s.mp n) := by
  unfold checkRange; split <;> simp_all

@[simp] theorem settle_alert {α : Type} (k : Slot) (r : Reply Device α) (s : State) :
    (settle k r s).alert = (s.alert || r.fault) := by
  unfold settle; split <;> simp_all

/-! ## pc and status after the sequential advance (40_cycle_and_control.md R72) -/

theorem advance_pc_toNat (k : Nat) (s : State) : (advance k s).pc.toNat = (s.pc.toNat + k) % 4096 := by
  have hs := s.pc.isLt
  have hpc : (advance k s).pc = (s.pc.setWidth 13 + BitVec.ofNat 13 k).extractLsb' 0 12 := by
    unfold advance; dsimp only; split <;> rfl
  rw [hpc]
  simp [BitVec.extractLsb'_toNat]

theorem advance_status_eq (k : Nat) (s : State) (h : k ≤ 4096) :
    (advance k s).status = if s.pc.toNat + k < 4096 then s.status else .outOfBounds := by
  have hs := s.pc.isLt
  have ht : (s.pc.setWidth 13 + BitVec.ofNat 13 k).toNat = s.pc.toNat + k := by
    simp; omega
  unfold advance; dsimp only
  rw [ht]
  split <;> split <;> first | rfl | omega

/-! ## Reading registers and slots -/

@[simp] theorem readReg_writeReg (r r' : Reg) (v : Word) (s : State) :
    readReg r (writeReg r' v s) = if r = r' then v else readReg r s := by
  simp only [readReg, writeReg, Vector.getElem_set, Fin.ext_iff, eq_comm]

theorem readReg_congr (r : Reg) {s t : State} (h : t.regs = s.regs) : readReg r t = readReg r s := by
  simp only [readReg, h]

@[simp] theorem readReg_setFlag (r : Reg) (f : Bool) (s : State) :
    readReg r (setFlag f s) = if r = flagReg then flagWord f else readReg r s := readReg_writeReg _ _ _ _

@[simp] theorem readReg_writeResultThenFlag (r x : Reg) (v : Word) (f : Bool) (s : State) :
    readReg r (writeResultThenFlag x v f s) =
      if r = flagReg then flagWord f else if r = x then v else readReg r s := by
  simp [writeResultThenFlag]

@[simp] theorem readReg_jump (r : Reg) (a : Addr) (s : State) : readReg r (jump a s) = readReg r s := rfl
@[simp] theorem readReg_raise (r : Reg) (e : Exc) (s : State) : readReg r (raise e s) = readReg r s :=
  readReg_congr r (by simp)
@[simp] theorem readReg_advance (r : Reg) (k : Nat) (s : State) : readReg r (advance k s) = readReg r s :=
  readReg_congr r (by simp)
@[simp] theorem readReg_skipWhen (r : Reg) (c : Bool) (s : State) : readReg r (skipWhen c s) = readReg r s :=
  readReg_congr r (by simp)
@[simp] theorem readReg_checkRange (r : Reg) (n : Nat) (s : State) : readReg r (checkRange n s) = readReg r s :=
  readReg_congr r (by simp)
@[simp] theorem readReg_settle {α : Type} (r : Reg) (k : Slot) (q : Reply Device α) (s : State) :
    readReg r (settle k q s) = readReg r s := readReg_congr r (by simp)

theorem readSlot_congr (k : Slot) {s t : State} (h : t.dev = s.dev) : readSlot k t = readSlot k s := by
  simp only [readSlot, h]

@[simp] theorem readSlot_writeReg (k : Slot) (r : Reg) (v : Word) (s : State) :
    readSlot k (writeReg r v s) = readSlot k s := rfl
@[simp] theorem readSlot_writeResultThenFlag (k : Slot) (x : Reg) (v : Word) (f : Bool) (s : State) :
    readSlot k (writeResultThenFlag x v f s) = readSlot k s := rfl
@[simp] theorem readSlot_jump (k : Slot) (a : Addr) (s : State) : readSlot k (jump a s) = readSlot k s := rfl
@[simp] theorem readSlot_raise (k : Slot) (e : Exc) (s : State) : readSlot k (raise e s) = readSlot k s :=
  readSlot_congr k (by simp)
@[simp] theorem readSlot_advance (k : Slot) (n : Nat) (s : State) : readSlot k (advance n s) = readSlot k s :=
  readSlot_congr k (by simp)
@[simp] theorem readSlot_skipWhen (k : Slot) (c : Bool) (s : State) : readSlot k (skipWhen c s) = readSlot k s :=
  readSlot_congr k (by simp)
@[simp] theorem readSlot_checkRange (k : Slot) (n : Nat) (s : State) : readSlot k (checkRange n s) = readSlot k s :=
  readSlot_congr k (by simp)

@[simp] theorem readSlot_putDevice (k k' : Slot) (d : Device) (s : State) :
    readSlot k (putDevice k' d s) = if k = k' then some d else readSlot k s := by
  simp only [readSlot, putDevice, Vector.getElem_set, Fin.ext_iff, eq_comm]

@[simp] theorem readSlot_settle {α : Type} (k k' : Slot) (q : Reply Device α) (s : State) :
    readSlot k (settle k' q s) = if k = k' then some q.state else readSlot k s := by
  unfold settle; split <;> simp

end Sys2Proof.Machine
end

