-- ==== Sys2Proof/Laws/Ops.lean ====
section
/-! SUPPORT. For each shared operation one lemma that says all it can do. -/

namespace Sys2Proof.Machine

/-! ## Checked byte accesses -/

theorem loadByte_ok {s : State} {a : Nat} (h : a < 4096) : loadByte s a = .ok (s.mem.read a) :=
  if_pos h

theorem storeByte_ok {s : State} {a : Nat} (b : Byte) (h : a < 4096) :
    storeByte a b s = .ok { s with mem := s.mem.write a b } := if_pos h

theorem loadWord_ok {s : State} {a : Nat} (h : a + 2 ≤ 4096) :
    loadWord s a = .ok (joinBytes (s.mem.read a) (s.mem.read (a + 1))) := by
  simp only [loadWord, loadByte_ok (show a < 4096 by omega), loadByte_ok (show a + 1 < 4096 by omega)]

/-- A range inside memory loads its bytes in ascending order. -/
theorem loadBytes_ok {s : State} : ∀ {a n : Nat}, a + n ≤ 4096 →
    loadBytes s a n = .ok ((List.range n).map (fun i => s.mem.read (a + i)))
  | _, 0, _ => rfl
  | a, n + 1, h => by
    simp only [loadBytes, loadByte_ok (show a < 4096 by omega), loadBytes_ok (show a + 1 + n ≤ 4096 by omega),
      List.range_succ_eq_map, List.map_cons, List.map_map, Nat.add_zero]
    congr 2
    exact List.map_congr_left (fun i _ => by simp [Function.comp, Nat.add_comm, Nat.add_left_comm])

/-- What storing a list of bytes from `a` on does: only memory changes, the other addresses keep their
bytes, and from a canonical memory the stored bytes read back in a canonical memory. -/
structure StoredAt (a : Nat) (bs : List Byte) (s : State) (m : Memory) : Prop where
  outside : ∀ c, ¬ (a ≤ c ∧ c < a + bs.length) → m.read c = s.mem.read c
  inside : s.mem.wf Config.memSize = true → ∀ i, i < bs.length → m.read (a + i) = bs.getD i 0
  wf : s.mem.wf Config.memSize = true → m.wf Config.memSize = true

/-- A list of bytes inside memory is stored. -/
theorem storeBytes_ok : ∀ {a : Nat} {bs : List Byte} {s : State}, a + bs.length ≤ 4096 →
    ∃ m, storeBytes a bs s = .ok { s with mem := m } ∧ StoredAt a bs s m
  | a, [], s, _ => ⟨s.mem, rfl, fun _ _ => rfl, fun _ i hi => absurd hi (by simp), id⟩
  | a, b :: bs, s, h => by
    simp only [List.length_cons] at h
    have ha : a < 4096 := by omega
    obtain ⟨m, hm, hs⟩ := storeBytes_ok (a := a + 1) (bs := bs) (s := { s with mem := s.mem.write a b }) (by omega)
    refine ⟨m, by simp only [storeBytes, storeByte_ok b ha, hm], ?_, ?_, ?_⟩
    · intro c hc
      simp only [List.length_cons] at hc
      rw [hs.outside c (by omega)]
      exact Memory.read_write_other _ _ _ _ (by omega)
    · intro hwf i hi
      cases i with
      | zero =>
        rw [hs.outside (a + 0) (by omega)]
        simpa using Memory.read_write a b a hwf
      | succ i =>
        have := hs.inside (Memory.write_wf b hwf ha) i (by simpa using hi)
        rw [show a + (i + 1) = a + 1 + i by omega, this]
        rfl
    · exact fun hwf => hs.wf (Memory.write_wf b hwf ha)

/-! ## Byte ranges (20_memory.md R37) -/

theorem window_fits (mp : Addr) (n : Nat) : mp.toNat + window mp n ≤ 4096 := by
  have := mp.isLt
  simp only [window, Config.memSize]
  omega

theorem window_le (mp : Addr) (n : Nat) : window mp n ≤ n := Nat.min_le_left _ _

theorem passesTop_eq (mp : Addr) (n : Nat) : passesTop mp n = decide (mp.toNat + n > 4096) := rfl

theorem window_eq_iff (mp : Addr) (n : Nat) : window mp n = n ↔ passesTop mp n = false := by
  have := mp.isLt
  rw [window, passesTop, decide_eq_false_iff_not]
  simp only [Config.memSize]
  omega

/-! ## Call stack (10_state.md R18) -/

theorem push_cases (v : Addr) (s : State) :
    (s.stack.length = 16 ∧ push v s = .error .stackOverflow) ∨
    (s.stack.length ≠ 16 ∧ push v s = .ok { s with stack := s.stack ++ [v] }) := by
  by_cases h : s.stack.length = 16
  · exact .inl ⟨h, if_pos h⟩
  · exact .inr ⟨h, if_neg h⟩

theorem pop_cases (s : State) :
    (s.stack = [] ∧ pop s = .error .stackUnderflow) ∨
    (∃ st v, s.stack = st ++ [v] ∧ pop s = .ok (v, { s with stack := st })) := by
  rcases List.eq_nil_or_concat s.stack with h | ⟨st, v, h⟩
  · exact .inl ⟨h, by simp [pop, h]⟩
  · exact .inr ⟨st, v, by simpa using h, by simp [pop, h]⟩

/-! ## Fetch (20_memory.md R36) -/

theorem fetch_cases (s : State) :
    (s.pc = 0xFFF#12 ∧ fetch s = .ok none) ∨
    (s.pc ≠ 0xFFF#12 ∧
      fetch s = .ok (some (joinBytes (s.mem.read s.pc.toNat) (s.mem.read (s.pc.toNat + 1))))) := by
  by_cases h : s.pc = 0xFFF#12
  · exact .inl ⟨h, if_pos h⟩
  · refine .inr ⟨h, ?_⟩
    have hlt : s.pc.toNat + 2 ≤ 4096 := by
      have := s.pc.isLt
      have : s.pc.toNat ≠ 4095 := fun e => h (BitVec.eq_of_toNat_eq (by simpa using e))
      omega
    simp only [fetch, if_neg h, loadWord_ok hlt]

/-! ## LD's loop (43_memory_pointer.md R114) -/

@[simp] theorem mem_registersUpTo (k x : Reg) : k ∈ registersUpTo x ↔ k ≤ x := by
  simp [registersUpTo]

/-- `x[k]` is loaded when both its bytes lie below 4096. -/
def inWindow (mp : Addr) (k : Reg) : Prop := mp.toNat + 2 * k.val + 2 ≤ 4096

/-- The word LD reads for `x[k]`. -/
def ldWord (s : State) (k : Reg) : Word :=
  joinBytes (s.mem.read (s.mp.toNat + 2 * k.val)) (s.mem.read (s.mp.toNat + 2 * k.val + 1))

theorem loadRegister_in {k : Reg} {s : State} (h : inWindow s.mp k) :
    loadRegister k s = .ok (writeReg k (ldWord s k) s) := by
  have h' : s.mp.toNat + 2 * k.val + 2 ≤ Config.memSize := h
  simp only [loadRegister, if_pos h', loadWord_ok h, ldWord]

theorem loadRegister_out {k : Reg} {s : State} (h : ¬ inWindow s.mp k) : loadRegister k s = .ok s := if_neg h

/-- LD's loop changes registers only: those of the list whose bytes lie below 4096 get their word. -/
theorem loadRegisters_ok : ∀ (ks : List Reg) (s : State), ∃ rs,
    loadRegisters ks s = .ok { s with regs := rs } ∧
    (∀ k, k ∈ ks → inWindow s.mp k → readReg k { s with regs := rs } = ldWord s k) ∧
    (∀ k, k ∉ ks ∨ ¬ inWindow s.mp k → readReg k { s with regs := rs } = readReg k s)
  | [], s => ⟨s.regs, rfl, fun _ h => absurd h (by simp), fun _ _ => rfl⟩
  | j :: ks, s => by
    by_cases hw : inWindow s.mp j
    · obtain ⟨rs, hrs, hin, hout⟩ := loadRegisters_ok ks (writeReg j (ldWord s j) s)
      refine ⟨rs, by simp only [loadRegisters, loadRegister_in hw, hrs]; rfl, ?_, ?_⟩
      · intro k hk hkw
        by_cases hmem : k ∈ ks
        · exact hin k hmem hkw
        · have hkj : k = j := by simpa [hmem] using hk
          subst hkj
          exact (hout k (.inl hmem)).trans (by simp)
      · intro k hk
        have hne : k ≠ j := by
          rintro rfl
          rcases hk with hk | hk
          · exact hk (by simp)
          · exact hk hw
        refine (hout k (hk.imp (fun h hm => h (by simp [hm])) id)).trans (by simp [hne])
    · obtain ⟨rs, hrs, hin, hout⟩ := loadRegisters_ok ks s
      refine ⟨rs, by simp only [loadRegisters, loadRegister_out hw, hrs], ?_, ?_⟩
      · intro k hk hkw
        have : k ∈ ks := by
          rcases List.mem_cons.mp hk with h | h
          · subst h; exact absurd hkw hw
          · exact h
        exact hin k this hkw
      · intro k hk
        exact hout k (hk.imp (fun h hm => h (by simp [hm])) id)

/-! ## Bus (45_device_bus.md R133 to R137) -/

theorem busWrite_absent {k : Slot} {s : State} (bs : List Byte) (h : readSlot k s = none) :
    busWrite k bs s = raise (.deviceAbsent k) s := by simp only [busWrite, h]

theorem busWrite_present {k : Slot} {s : State} {d : Device} (bs : List Byte) (h : readSlot k s = some d) :
    busWrite k bs s = settle k (deviceWrite d bs) s := by simp only [busWrite, h]

theorem busRead_absent {k : Slot} {s : State} (n : Nat) (h : readSlot k s = none) :
    busRead k n s = (raise (.deviceAbsent k) s, []) := by simp only [busRead, h]

theorem busRead_present {k : Slot} {s : State} {d : Device} (n : Nat) (h : readSlot k s = some d) :
    busRead k n s = (settle k (deviceRead d n) s, (deviceRead d n).value) := by simp only [busRead, h]

theorem busSetPointer_absent {k : Slot} {s : State} (v : Word) (h : readSlot k s = none) :
    busSetPointer k v s = raise (.deviceAbsent k) s := by simp only [busSetPointer, h]

theorem busSetPointer_present {k : Slot} {s : State} {d : Device} (v : Word) (h : readSlot k s = some d) :
    busSetPointer k v s = settle k (deviceSetPointer d v) s := by simp only [busSetPointer, h]

theorem busGetPointer_absent {k : Slot} {s : State} (h : readSlot k s = none) :
    busGetPointer k s = (raise (.deviceAbsent k) s, none) := by simp only [busGetPointer, h]

theorem busGetPointer_present {k : Slot} {s : State} {d : Device} (h : readSlot k s = some d) :
    busGetPointer k s = (settle k (deviceGetPointer d) s, some (deviceGetPointer d).value) := by
  simp only [busGetPointer, h]

end Sys2Proof.Machine
end

