-- ==== Sys2Proof/Laws/Instr.lean ====
section
/-! SUPPORT. For each meaning that branches, and for the step, one lemma that says all it can do; the
other meanings are one expression and need none. -/

namespace Sys2Proof.Machine

/-! ## Call stack (40_cycle_and_control.md R75, R77, R79) -/

theorem callTo_cases (a : Addr) (s : State) :
    (s.stack.length = 16 ∧ callTo a s = .next (raise .stackOverflow s)) ∨
    (s.stack.length ≠ 16 ∧
      callTo a s = .next { s with pc := a, stack := s.stack ++ [returnAddress s.pc] }) := by
  rcases push_cases (returnAddress s.pc) s with ⟨h, e⟩ | ⟨h, e⟩
  · exact .inl ⟨h, by simp only [callTo, e]⟩
  · exact .inr ⟨h, by simp only [callTo, e]; rfl⟩

theorem execRet_cases (s : State) :
    (s.stack = [] ∧ execRet s = .next (raise .stackUnderflow s)) ∨
    (∃ st v, s.stack = st ++ [v] ∧ execRet s = .next { s with pc := v, stack := st }) := by
  rcases pop_cases s with ⟨h, e⟩ | ⟨st, v, h, e⟩
  · exact .inl ⟨h, by simp only [execRet, e]⟩
  · exact .inr ⟨st, v, h, by simp only [execRet, e]; rfl⟩

/-! ## Store and load (43_memory_pointer.md R113, R114) -/

theorem execSpl_eq (x : Reg) (s : State) : ∃ m,
    execSpl x s = .next (advance 2 { checkRange 2 s with mem := m }) ∧
    StoredAt s.mp.toNat (splBytes s.mp (readReg x s)) s m := by
  have hl : s.mp.toNat + (splBytes s.mp (readReg x s)).length ≤ 4096 := by
    have := window_fits s.mp 2
    simp [splBytes]; omega
  obtain ⟨m, hm, hs⟩ := storeBytes_ok (s := checkRange 2 s) hl
  refine ⟨m, by simp only [execSpl, hm], fun c hc => (hs.outside c hc).trans (by simp),
    fun hw => hs.inside (by simpa using hw), fun hw => hs.wf (by simpa using hw)⟩

theorem execLd_eq (x : Reg) (s : State) : ∃ rs,
    execLd x s = .next (advance 2 { checkRange (2 * (x.val + 1)) s with regs := rs }) ∧
    (∀ k, k ≤ x → inWindow s.mp k → readReg k { s with regs := rs } = ldWord s k) ∧
    (∀ k, ¬ k ≤ x ∨ ¬ inWindow s.mp k → readReg k { s with regs := rs } = readReg k s) := by
  obtain ⟨rs, h1, h2, h3⟩ := loadRegisters_ok (registersUpTo x) (checkRange (2 * (x.val + 1)) s)
  have hr : ∀ k, readReg k { s with regs := rs } =
      readReg k { checkRange (2 * (x.val + 1)) s with regs := rs } := fun _ => rfl
  refine ⟨rs, by simp only [execLd, h1], fun k hk hw => ?_, fun k hk => ?_⟩
  · rw [hr, h2 k (by simpa using hk) (by simpa [inWindow] using hw)]
    simp [ldWord]
  · rw [hr, h3 k (by simpa [inWindow] using hk)]
    simp

/-! ## Device instructions (44_device_instructions.md R120 to R123) -/

theorem execWrite_eq (x : Slot) (n : Nat) (s : State) :
    execWrite x n s = .next (advance 2 (busWrite x (windowBytes s n) (checkRange n s))) := by
  have h : loadBytes s s.mp.toNat (window s.mp n) = .ok (windowBytes s n) := loadBytes_ok (window_fits _ _)
  simp only [execWrite, h]

theorem execRead_cases (x : Slot) (n : Nat) (s : State) :
    (readSlot x s = none ∧
      execRead x n s = .next (advance 2 (raise (.deviceAbsent x) (checkRange n s)))) ∨
    (∃ d m, readSlot x s = some d ∧
      execRead x n s =
        .next (advance 2 { settle x (deviceRead d (window s.mp n)) (checkRange n s) with mem := m }) ∧
      StoredAt s.mp.toNat (deviceRead d (window s.mp n)).value s m) := by
  cases hd : readSlot x s with
  | none =>
    have hd' : readSlot x (checkRange n s) = none := by simpa using hd
    exact .inl ⟨rfl, by simp only [execRead, busRead_absent _ hd']; rfl⟩
  | some d =>
    have hd' : readSlot x (checkRange n s) = some d := by simpa using hd
    have hlen := deviceRead_length_le d (window s.mp n)
    have hfit := window_fits s.mp n
    obtain ⟨m, hm, hs⟩ := storeBytes_ok (a := s.mp.toNat) (bs := (deviceRead d (window s.mp n)).value)
      (s := settle x (deviceRead d (window s.mp n)) (checkRange n s)) (by omega)
    exact .inr ⟨d, m, rfl, by simp only [execRead, busRead_present _ hd', hm],
      fun c hc => (hs.outside c hc).trans (by simp), fun hw => hs.inside (by simpa using hw),
      fun hw => hs.wf (by simpa using hw)⟩

theorem execDpg_cases (x : Slot) (s : State) :
    (readSlot x s = none ∧ execDpg x s = .next (advance 2 (raise (.deviceAbsent x) s))) ∨
    (∃ d, readSlot x s = some d ∧
      execDpg x s = .next (advance 2 (writeReg flagReg (deviceGetPointer d).value
        (settle x (deviceGetPointer d) s)))) := by
  cases hd : readSlot x s with
  | none => exact .inl ⟨rfl, by simp only [execDpg, busGetPointer_absent hd]⟩
  | some d => exact .inr ⟨d, rfl, by simp only [execDpg, busGetPointer_present hd]⟩

theorem busWrite_cases (k : Slot) (bs : List Byte) (s : State) :
    (readSlot k s = none ∧ busWrite k bs s = raise (.deviceAbsent k) s) ∨
    (∃ d, readSlot k s = some d ∧ busWrite k bs s = settle k (deviceWrite d bs) s) := by
  cases hd : readSlot k s with
  | none => exact .inl ⟨rfl, busWrite_absent _ hd⟩
  | some d => exact .inr ⟨d, rfl, busWrite_present _ hd⟩

theorem busSetPointer_cases (k : Slot) (v : Word) (s : State) :
    (readSlot k s = none ∧ busSetPointer k v s = raise (.deviceAbsent k) s) ∨
    (∃ d, readSlot k s = some d ∧ busSetPointer k v s = settle k (deviceSetPointer d v) s) := by
  cases hd : readSlot k s with
  | none => exact .inl ⟨rfl, busSetPointer_absent _ hd⟩
  | some d => exact .inr ⟨d, rfl, busSetPointer_present _ hd⟩

/-! ## The step (R70) -/

/-- What a step that answers a next state can have done. -/
theorem step_cases {s t : State} (h : step s = .next t) :
    (s.status ≠ .running ∧ t = s) ∨
    (s.status = .running ∧ s.pc = 0xFFF#12 ∧ t = raise .pcOutOfBounds s) ∨
    (s.status = .running ∧ s.pc ≠ 0xFFF#12 ∧ ∃ i,
      decode (joinBytes (s.mem.read s.pc.toNat) (s.mem.read (s.pc.toNat + 1))) = .ok i ∧ exec i s = .next t) ∨
    (s.status = .running ∧ s.pc ≠ 0xFFF#12 ∧ ∃ w, t = advance 2 (raise (.illegalOpcode w) s)) := by
  cases hs : s.status with
  | running =>
    simp only [step, instructionCycle, hs, runCycle] at h
    rcases fetch_cases s with ⟨h1, e⟩ | ⟨h1, e⟩
    · simp only [e] at h
      cases h
      exact .inr (.inl ⟨rfl, h1, rfl⟩)
    · simp only [e] at h
      split at h
      · exact .inr (.inr (.inl ⟨rfl, h1, _, ‹_›, h⟩))
      · cases h
        exact .inr (.inr (.inr ⟨rfl, h1, _, rfl⟩))
  | halted => exact .inl ⟨by simp, by simp [step, instructionCycle, hs] at h; exact h.symm⟩
  | outOfBounds => exact .inl ⟨by simp, by simp [step, instructionCycle, hs] at h; exact h.symm⟩

end Sys2Proof.Machine
end

