-- ==== Sys2Proof/Laws/PerInstr.lean ====
section
/-! SUPPORT. Statements made instruction by instruction: the encoder puts every instruction in its own
row of the opcode map (spec 30_encoding.md R55). -/

namespace Sys2Proof.Laws

theorem formatA_row (p : BitVec 4) (nnn : Addr) (c : Word) (h : c.toNat = p.toNat * 4096) :
    formatA p nnn &&& 0xF000#16 = c := by
  have := nnn.isLt
  apply BitVec.eq_of_toNat_eq
  rw [and_maskP_toNat, formatA_toNat, h]; omega

theorem formatI_row (p : BitVec 4) (x : Fin 16) (nn : Byte) (c : Word) (h : c.toNat = p.toNat * 4096) :
    formatI p x nn &&& 0xF000#16 = c := by
  have := nn.isLt; have := x.isLt
  apply BitVec.eq_of_toNat_eq
  rw [and_maskP_toNat, formatI_toNat, h]; omega

theorem formatI_rowQ (p : BitVec 4) (x : Fin 16) (y q : BitVec 4) (c : Word)
    (h : c.toNat = p.toNat * 4096 + q.toNat) :
    formatI p x (y ++ q : BitVec 8) &&& 0xF00F#16 = c := by
  have := q.isLt; have := y.isLt; have := x.isLt
  apply BitVec.eq_of_toNat_eq
  rw [and_maskPQ_toNat, formatI_toNat, lowByte_toNat, h]; omega

theorem formatI_rowRR (p : BitVec 4) (x : Fin 16) (rr : Byte) (c : Word)
    (h : c.toNat = p.toNat * 4096 + rr.toNat) :
    formatI p x rr &&& 0xF0FF#16 = c := by
  have := rr.isLt; have := x.isLt
  apply BitVec.eq_of_toNat_eq
  rw [and_maskPRR_toNat, formatI_toNat, h]; omega

/-- The word of the instruction belongs to the instruction's row. -/
def EncodesInItsRow.Statement (i : Instr) : Prop := encode i &&& (opcodeRow i).mask = (opcodeRow i).code

theorem EncodesInItsRow.halt : EncodesInItsRow.Statement .halt :=
  rfl
theorem EncodesInItsRow.ret : EncodesInItsRow.Statement .ret :=
  rfl
theorem EncodesInItsRow.goto (nnn : Addr) : EncodesInItsRow.Statement (.goto nnn) :=
  formatA_row _ _ _ rfl
theorem EncodesInItsRow.call (nnn : Addr) : EncodesInItsRow.Statement (.call nnn) :=
  formatA_row _ _ _ rfl
theorem EncodesInItsRow.snec (x : Reg) (nn : Byte) : EncodesInItsRow.Statement (.snec x nn) :=
  formatI_row _ _ _ _ rfl
theorem EncodesInItsRow.snuec (x : Reg) (nn : Byte) : EncodesInItsRow.Statement (.snuec x nn) :=
  formatI_row _ _ _ _ rfl
theorem EncodesInItsRow.sne (x : Reg) (y : Reg) : EncodesInItsRow.Statement (.sne x y) :=
  formatI_rowQ _ _ _ _ _ rfl
theorem EncodesInItsRow.acr (x : Reg) (nn : Byte) : EncodesInItsRow.Statement (.acr x nn) :=
  formatI_row _ _ _ _ rfl
theorem EncodesInItsRow.adc (x : Reg) (nn : Byte) : EncodesInItsRow.Statement (.adc x nn) :=
  formatI_row _ _ _ _ rfl
theorem EncodesInItsRow.ar (x : Reg) (y : Reg) : EncodesInItsRow.Statement (.ar x y) :=
  formatI_rowQ _ _ _ _ _ rfl
theorem EncodesInItsRow.or (x : Reg) (y : Reg) : EncodesInItsRow.Statement (.or x y) :=
  formatI_rowQ _ _ _ _ _ rfl
theorem EncodesInItsRow.and (x : Reg) (y : Reg) : EncodesInItsRow.Statement (.and x y) :=
  formatI_rowQ _ _ _ _ _ rfl
theorem EncodesInItsRow.xor (x : Reg) (y : Reg) : EncodesInItsRow.Statement (.xor x y) :=
  formatI_rowQ _ _ _ _ _ rfl
theorem EncodesInItsRow.add (x : Reg) (y : Reg) : EncodesInItsRow.Statement (.add x y) :=
  formatI_rowQ _ _ _ _ _ rfl
theorem EncodesInItsRow.sub (x : Reg) (y : Reg) : EncodesInItsRow.Statement (.sub x y) :=
  formatI_rowQ _ _ _ _ _ rfl
theorem EncodesInItsRow.shr (x : Reg) (count : Nat) : EncodesInItsRow.Statement (.shr x count) :=
  formatI_rowQ _ _ _ _ _ rfl
theorem EncodesInItsRow.rsub (x : Reg) (y : Reg) : EncodesInItsRow.Statement (.rsub x y) :=
  formatI_rowQ _ _ _ _ _ rfl
theorem EncodesInItsRow.shl (x : Reg) (count : Nat) : EncodesInItsRow.Statement (.shl x count) :=
  formatI_rowQ _ _ _ _ _ rfl
theorem EncodesInItsRow.snue (x : Reg) (y : Reg) : EncodesInItsRow.Statement (.snue x y) :=
  formatI_rowQ _ _ _ _ _ rfl
theorem EncodesInItsRow.smp (nnn : Addr) : EncodesInItsRow.Statement (.smp nnn) :=
  formatA_row _ _ _ rfl
theorem EncodesInItsRow.cpac (nnn : Addr) : EncodesInItsRow.Statement (.cpac nnn) :=
  formatA_row _ _ _ rfl
theorem EncodesInItsRow.bar (x : Reg) (nn : Byte) : EncodesInItsRow.Statement (.bar x nn) :=
  formatI_row _ _ _ _ rfl
theorem EncodesInItsRow.write (x : Slot) (count : Nat) : EncodesInItsRow.Statement (.write x count) :=
  formatI_row _ _ _ _ rfl
theorem EncodesInItsRow.dps (x : Slot) : EncodesInItsRow.Statement (.dps x) :=
  formatI_rowRR _ _ _ _ rfl
theorem EncodesInItsRow.dpg (x : Slot) : EncodesInItsRow.Statement (.dpg x) :=
  formatI_rowRR _ _ _ _ rfl
theorem EncodesInItsRow.callr (x : Reg) : EncodesInItsRow.Statement (.callr x) :=
  formatI_rowRR _ _ _ _ rfl
theorem EncodesInItsRow.rmp (x : Reg) : EncodesInItsRow.Statement (.rmp x) :=
  formatI_rowRR _ _ _ _ rfl
theorem EncodesInItsRow.mpar (x : Reg) : EncodesInItsRow.Statement (.mpar x) :=
  formatI_rowRR _ _ _ _ rfl
theorem EncodesInItsRow.spl (x : Reg) : EncodesInItsRow.Statement (.spl x) :=
  formatI_rowRR _ _ _ _ rfl
theorem EncodesInItsRow.ld (x : Reg) : EncodesInItsRow.Statement (.ld x) :=
  formatI_rowRR _ _ _ _ rfl
theorem EncodesInItsRow.read (x : Slot) (count : Nat) : EncodesInItsRow.Statement (.read x count) :=
  formatI_row _ _ _ _ rfl

end Sys2Proof.Laws
end

