-- ==== Sys2Proof/Tests/Slice0.lean ====
section
/-! SUPPORT. Checks of the model against 95_test_vectors.md (the V numbers are its), the smoke test of
WellFormed, and for each statement with hypotheses a state that meets them. -/

namespace Sys2Proof.Tests

open Sys2Proof.Machine

/-! ## Helpers -/

/-- The vectors' start: as after reset, at `pc = 010`. -/
def start : State := { State.reset with pc := 0x010 }

/-- Registers set by number. -/
def withRegs (l : List (Reg × Word)) (s : State) : State := l.foldl (fun s p => writeReg p.1 p.2 s) s

/-- A memory that holds some bytes from an address on. -/
def withBytes (a : Nat) (bs : List Byte) (s : State) : State := { s with mem := Memory.ofBytes a bs }

/-- A device in a slot. -/
def withDevice (k : Slot) (d : Device) (s : State) : State := putDevice k d s

/-- What one step of the word, placed at `pc` of the state, leaves, through an observation. -/
def after {α : Type} (w : Word) (s : State) (f : State → α) : Option α := (nextOf (step (placeWord w s))).map f

/-- Registers by number, then `pc`. -/
def regsPc (l : List Reg) (s : State) : List Nat := l.map (fun r => (readReg r s).toNat) ++ [s.pc.toNat]

/-- What the console in slot 0 has printed. -/
def printed (s : State) : String :=
  match readSlot 0 s with
  | some (.console c) => String.ofList c.output
  | _ => "?"

/-- Bytes of memory. -/
def bytes (a n : Nat) (s : State) : List Byte := (List.range n).map (fun i => s.mem.read (a + i))

/-- A console with one input line. -/
def console (fmt : BitVec 1) (line : String) : Device := .console ⟨fmt, [line.toList], []⟩

/-- A stack of `n` equal entries. -/
def withStack (n : Nat) (s : State) : State := { s with stack := List.replicate n 0x002 }

/-! ## WellFormed: each check refuses a term (30_encoding.md R53) -/

theorem test_wellFormed_shr : (Instr.shr 0 16).wellFormed = false ∧ (Instr.shr 0 15).wellFormed = true := by decide
theorem test_wellFormed_shl : (Instr.shl 0 16).wellFormed = false ∧ (Instr.shl 0 15).wellFormed = true := by decide
theorem test_wellFormed_write :
    (Instr.write 0 256).wellFormed = false ∧ (Instr.write 0 255).wellFormed = true := by decide
theorem test_wellFormed_read :
    (Instr.read 0 256).wellFormed = false ∧ (Instr.read 0 255).wellFormed = true := by decide

/-! ## Decoding: every constructor, words of section 2 -/

theorem test_decode_control : decode 0x0000 = .ok .halt ∧ decode 0x01EE = .ok .ret ∧
    decode 0x1FFF = .ok (.goto 0xFFF) ∧ decode 0x2ABC = .ok (.call 0xABC) ∧ decode 0xB004 = .ok (.cpac 4) ∧
    decode 0xE31C = .ok (.callr 3) := by decide
theorem test_decode_skips : decode 0x3F01 = .ok (.snec 15 1) ∧ decode 0x4000 = .ok (.snuec 0 0) ∧
    decode 0x5120 = .ok (.sne 1 2) ∧ decode 0x9120 = .ok (.snue 1 2) := by decide
theorem test_decode_immediates : decode 0x6FAB = .ok (.acr 15 0xAB) ∧ decode 0x7000 = .ok (.adc 0 0) ∧
    decode 0xC30F = .ok (.bar 3 0x0F) := by decide
theorem test_decode_group8 : decode 0x8AB0 = .ok (.ar 10 11) ∧ decode 0x8AB1 = .ok (.or 10 11) ∧
    decode 0x8AB2 = .ok (.and 10 11) ∧ decode 0x8AB3 = .ok (.xor 10 11) ∧ decode 0x8AB4 = .ok (.add 10 11) ∧
    decode 0x8AB5 = .ok (.sub 10 11) ∧ decode 0x8AB6 = .ok (.shr 10 11) ∧ decode 0x8AB7 = .ok (.rsub 10 11) ∧
    decode 0x8ABE = .ok (.shl 10 11) := by decide
theorem test_decode_memory : decode 0xA123 = .ok (.smp 0x123) ∧ decode 0xE21D = .ok (.rmp 2) ∧
    decode 0xE11E = .ok (.mpar 1) ∧ decode 0xE055 = .ok (.spl 0) ∧ decode 0xEF65 = .ok (.ld 15) := by decide
theorem test_decode_device : decode 0xD002 = .ok (.write 0 2) ∧ decode 0xFFFF = .ok (.read 15 255) ∧
    decode 0xE000 = .ok (.dps 0) ∧ decode 0xE001 = .ok (.dpg 0) := by decide
theorem test_decode_illegal : [0x00E0, 0x00EE, 0x0001, 0x01EF, 0x0100, 0x0FFF, 0x5121, 0x512F, 0x8AB8, 0x8AB9,
    0x8ABA, 0x8ABB, 0x8ABC, 0x8ABD, 0x8ABF, 0x9121, 0xE002, 0xE01B, 0xE01F, 0xE09E, 0xE0A1, 0xE056,
    0xE066].all (fun w : Word => decide (decode w = .error (.illegalWord w))) = true := by decide
theorem test_encode_words : encode (.shl 10 11) = 0x8ABE ∧ encode (.read 15 255) = 0xFFFF ∧
    encode (.ld 15) = 0xEF65 ∧ encode (.sne 1 2) = 0x5120 ∧ encode .ret = 0x01EE := by decide
theorem test_table_word : decodeTableWord 16 0xE31C = some (.callr 3) ∧ decodeTableWord 16 0x00E0 = none := by
  decide

/-! ## One step (sections 3 to 8) -/

theorem test_V2_halt : after 0x0000 { start with alert := true } (fun t => (t.pc, t.status, t.alert)) =
    some (0x010, .halted, true) := by decide
theorem test_V5_ret : after 0x01EE { start with stack := [0x100, 0x2A1] } (fun t => (t.pc, t.stack)) =
    some (0x2A1, [0x100]) := by decide
theorem test_V6_ret_empty : after 0x01EE start (fun t => (t.pc, t.alert, t.status)) =
    some (0x010, true, .halted) := by decide
theorem test_V7_goto : after 0x1234 start (fun t => t.pc) = some 0x234 := by decide
theorem test_V11_call : after 0x2ABC { start with pc := 0xFFE, stack := [0x004] } (fun t => (t.pc, t.stack)) =
    some (0xABC, [0x004, 0x000]) := by decide
theorem test_V12_call_full : after 0x2008 (withStack 16 start)
    (fun t => (t.pc, t.alert, t.status, t.stack.length)) = some (0x010, true, .halted, 16) := by decide
theorem test_V15_cpac : after 0xBFFF (withRegs [(0, 0x1002)] start) (fun t => t.pc) = some 0x001 := by decide
theorem test_V17_callr : after 0xEF1C (withRegs [(15, 0x0201)] { start with stack := [0x004] })
    (fun t => (t.pc, t.stack)) = some (0x201, [0x004, 0x012]) := by decide
theorem test_V18_callr_full : after 0xE31C (withStack 16 (withRegs [(3, 0x0040)] start))
    (fun t => (t.pc, t.alert, t.status)) = some (0x010, true, .halted) := by decide
theorem test_V21_fetch_at_top : nextOf (step { start with pc := 0xFFF }) =
    some { start with pc := 0xFFF, status := .outOfBounds } := by decide

theorem test_V31_snec : after 0x3005 (withRegs [(0, 0x0105)] start) (fun t => t.pc) = some 0x012 := by decide
theorem test_V40_snec_at_top : after 0x3005 (withRegs [(0, 0x0005)] { start with pc := 0xFFC })
    (fun t => (t.pc, t.status, t.alert)) = some (0x000, .outOfBounds, false) := by decide
theorem test_V33_snuec : after 0x4005 (withRegs [(0, 0x0105)] start) (fun t => t.pc) = some 0x014 := by decide
theorem test_V42_snuec_at_top : after 0x4000 (withRegs [(0, 1)] { start with pc := 0xFFE })
    (fun t => (t.pc, t.status)) = some (0x002, .outOfBounds) := by decide
theorem test_V35_sne : after 0x5120 (withRegs [(1, 0x000B), (2, 0x000C)] start) (fun t => t.pc) =
    some 0x012 := by decide
theorem test_V36_sne_same : after 0x5330 (withRegs [(3, 0xABCD)] start) (fun t => t.pc) = some 0x014 := by
  decide
theorem test_V38_snue : after 0x9120 (withRegs [(1, 0x000B), (2, 0x000C)] start) (fun t => t.pc) =
    some 0x014 := by decide

theorem test_V51_acr : after 0x6F10 (withRegs [(15, 1)] start) (regsPc [15]) = some [0x10, 0x12] := by decide
theorem test_V53_adc : after 0x7101 (withRegs [(1, 0xFFFF)] start) (regsPc [1, 15]) = some [0, 0, 0x12] := by
  decide
theorem test_V54_adc_flag : after 0x7FFF (withRegs [(15, 1)] start) (regsPc [15]) = some [0x100, 0x12] := by
  decide
theorem test_V55_ar : after 0x8230 (withRegs [(3, 0xBEEF)] start) (regsPc [2, 3]) =
    some [0xBEEF, 0xBEEF, 0x12] := by decide
theorem test_V57_or : after 0x8011 (withRegs [(0, 0x00F0), (1, 0x0F0F)] start) (regsPc [0, 15]) =
    some [0x0FFF, 0, 0x12] := by decide
theorem test_V58_and : after 0x8012 (withRegs [(0, 0x00F0), (1, 0x0FF0)] start) (regsPc [0, 15]) =
    some [0x00F0, 0, 0x12] := by decide
theorem test_V59_xor : after 0x8013 (withRegs [(0, 0x00FF), (1, 0x0F0F)] start) (regsPc [0, 15]) =
    some [0x0FF0, 0, 0x12] := by decide
theorem test_V62_add : after 0x8014 (withRegs [(0, 0xFF), (1, 0xFF), (15, 1)] start) (regsPc [0, 15]) =
    some [0x1FE, 0, 0x12] := by decide
theorem test_V65_add_flag : after 0x8F14 (withRegs [(1, 2), (15, 0xFFFF)] start) (regsPc [15]) =
    some [1, 0x12] := by decide
theorem test_V69_sub : after 0x8235 (withRegs [(2, 5), (3, 7), (15, 1)] start) (regsPc [2, 15]) =
    some [0xFFFE, 0, 0x12] := by decide
theorem test_V73_sub_flag : after 0x8F15 (withRegs [(1, 2), (15, 9)] start) (regsPc [15]) = some [1, 0x12] := by
  decide
theorem test_V74_rsub : after 0x8237 (withRegs [(2, 7), (3, 5), (15, 1)] start) (regsPc [2, 15]) =
    some [0xFFFE, 0, 0x12] := by decide
theorem test_V77_rsub_equal : after 0x8237 start (regsPc [2, 15]) = some [0, 1, 0x12] := by decide
theorem test_V78_shr : after 0x8536 (withRegs [(5, 0x00AB)] start) (regsPc [5, 15]) = some [0x15, 1, 0x12] := by
  decide
theorem test_V84_shr_zero_bit : after 0x8546 (withRegs [(5, 0xFFEF), (15, 1)] start) (regsPc [5, 15]) =
    some [0x0FFE, 0, 0x12] := by decide
theorem test_V87_shl_by_zero : after 0x840E (withRegs [(4, 0xFFFF), (15, 1)] start) (regsPc [4, 15]) =
    some [0xFFFF, 0, 0x12] := by decide
theorem test_V88_shl : after 0x842E (withRegs [(4, 0x4000)] start) (regsPc [4, 15]) = some [0, 1, 0x12] := by
  decide
theorem test_V94_bar : (nextOf (barWithDraw 0xA7 3 0x0F (withRegs [(3, 0xFFFF)] start))).map (regsPc [3]) =
    some [7, 0x12] := by decide
theorem test_V97_bar_flag : (nextOf (barWithDraw 0x5A 15 0xF0 (withRegs [(15, 1)] start))).map (regsPc [15]) =
    some [0x50, 0x12] := by decide

theorem test_V101_smp : after 0xAFFF { start with mp := 0x123 } (fun t => (t.mp, t.pc)) = some (0xFFF, 0x012) := by
  decide
theorem test_V102_rmp : after 0xE21D (withRegs [(2, 0xFFFF)] { start with mp := 0xABC }) (regsPc [2]) =
    some [0xABC, 0x12] := by decide
theorem test_V106_mpar : after 0xE11E (withRegs [(1, 0xFFFE)] { start with mp := 0x100 }) (fun t => (t.mp, t.pc)) =
    some (0x0FE, 0x012) := by decide
theorem test_V111_spl_at_top : after 0xE055 (withRegs [(0, 0x1234)] (withBytes 0 [0x77] { start with mp := 0xFFF }))
    (fun t => (bytes 0xFFF 1 t, bytes 0 1 t, t.alert, t.pc)) = some ([0x12], [0x77], true, 0x012) := by decide
theorem test_V112_spl_over_itself : after 0xE055 (withRegs [(0, 0x6001)] { start with mp := 0x010 })
    (fun t => (bytes 0x10 2 t, t.pc, t.alert)) = some ([0x60, 0x01], 0x012, false) := by decide
theorem test_V113_ld : after 0xE165
    (withRegs [(2, 0x5555)] (withBytes 0x100 [0x12, 0x34, 0xAB, 0xCD] { start with mp := 0x100 }))
    (regsPc [0, 1, 2]) = some [0x1234, 0xABCD, 0x5555, 0x12] := by decide
theorem test_V117_ld_at_top : after 0xE165
    (withRegs [(0, 0xEEE0), (1, 0xEEE1)] (withBytes 0xFFD [0x11, 0x22, 0x33] { start with mp := 0xFFD }))
    (fun t => (regsPc [0, 1] t, t.alert)) = some ([0x1122, 0xEEE1, 0x12], true) := by decide

theorem test_V137_write_cut : after 0xD004 (withBytes 0xFFE [1, 2] { start with mp := 0xFFE })
    (fun t => (printed t, t.alert, t.pc)) = some ("258", true, 0x012) := by decide
theorem test_V139_write_wraps : after 0xD103 (withDevice 1 (.memExt ⟨[], 0xFFFF⟩)
      (withBytes 0x100 [0xAA, 0xBB, 0xCC] { start with mp := 0x100 })) (fun t => readSlot 1 t) =
    some (some (.memExt ⟨[(0, 0xBB), (1, 0xCC), (0xFFFF, 0xAA)], 2⟩)) := by decide
theorem test_V142_read : after 0xF003 (withDevice 0 (console 0 " 65537 ")
      (withBytes 0x200 [0xEE, 0xEE, 0xEE] { start with mp := 0x200 }))
    (fun t => (bytes 0x200 3 t, readSlot 0 t, t.alert)) =
    some ([1, 0, 1], some (.console ⟨0, [], []⟩), false) := by decide
theorem test_V144_read_fails : after 0xF002 (withDevice 0 (console 0 "1f")
      (withBytes 0x200 [0xEE, 0xEE] { start with mp := 0x200 }))
    (fun t => (bytes 0x200 2 t, readSlot 0 t, t.alert, t.pc)) =
    some ([0xEE, 0xEE], some (.console ⟨0, [], []⟩), true, 0x012) := by decide
theorem test_V155_dps : after 0xE100 (withRegs [(15, 0xBEEF)] (withDevice 1 (.memExt ⟨[], 0⟩) start))
    (fun t => (readSlot 1 t, t.pc)) = some (some (.memExt ⟨[], 0xBEEF⟩), 0x012) := by decide
theorem test_V156_dps_empty : after 0xE500 (withRegs [(15, 1)] start) (fun t => (t.alert, t.pc)) =
    some (true, 0x012) := by decide
theorem test_V157_dpg : after 0xE001 (withRegs [(15, 0xFFFF)] (withDevice 0 (console 1 "") start)) (regsPc [15]) =
    some [1, 0x12] := by decide
theorem test_V159_dpg_empty : after 0xE501 (withRegs [(15, 0x1234)] start) (fun t => (regsPc [15] t, t.alert)) =
    some ([0x1234, 0x12], true) := by decide

theorem test_V134_console_hex : (consoleWrite ⟨1, [], []⟩ [0x00, 0x2A]).state.output = "002A".toList := by decide
theorem test_big_endian : bigEndian [0x01, 0x00, 0x02] = 65538 := by decide
theorem test_V149_rom_read : romRead ⟨true, Memory.ofBytes 0 [0x10, 0x20, 0x30], 1⟩ 4 =
    ⟨⟨true, Memory.ofBytes 0 [0x10, 0x20, 0x30], 5⟩, [0x20, 0x30, 0, 0], false⟩ := by decide
theorem test_V138_rom_write : (deviceWrite (.rom ⟨true, [], 0⟩) [0xAA, 0xBB]).fault = true := by decide
theorem test_V181_illegal_at_top : after 0x00E0 { start with pc := 0xFFE } (fun t => (t.pc, t.alert, t.status)) =
    some (0x000, true, .outOfBounds) := by decide
theorem test_reset_word : (nextOf (step (State.reset.withFetchWord 16 0x60AB))).map (regsPc [0]) =
    some [0xAB, 2] := by decide

/-! ## Witnesses: for each statement with hypotheses, a state and operands that meet them -/

/-- The invariant of a state, checked slot by slot. -/
theorem inv_of_check {s : State} (h : s.mem.wf Config.memSize = true ∧ s.stack.length ≤ Config.stackDepth ∧
    ∀ k : Slot, (readSlot k s).all Device.wf = true) : s.Inv :=
  ⟨h.1, h.2.1, fun k d hd => by simpa [hd] using h.2.2 k⟩

/-- A state with every kind of device the default machine can evaluate, a canonical memory and fifteen
return addresses. -/
def full : State :=
  withDevice 2 (.rom ⟨true, [(0, 0x10)], 0xFFFF⟩) (withDevice 1 (.memExt ⟨[(0xFFFF, 0x5A)], 0xFFFF⟩)
    (withStack 15 (withBytes 0xFFD [0x11, 0x22, 0x33] (withRegs [(0, 0x1234), (3, 0x8AB6)] start))))

theorem witness_inv_full (mp pc : Addr) : ({ full with mp := mp, pc := pc } : State).Inv :=
  inv_of_check ⟨by show full.mem.wf _ = true; decide, by show full.stack.length ≤ _; decide, by
    show ∀ k : Slot, (readSlot k full).all Device.wf = true
    decide⟩

theorem witness_DecodeOfEncode : (Instr.shr 10 15).wellFormed = true ∧ (Instr.read 15 255).wellFormed = true := by
  decide
theorem witness_EncodeOfDecode : decode 0x8AFE = .ok (.shl 10 15) := by decide
theorem witness_DecodeFollowsOpcodeMap : opcodeRow (.shl 10 15) ∈ opcodeTable ∧
    rowMatches 0x8AFE (opcodeRow (.shl 10 15)) = true := by decide
/-- A legal word in the last place where one fits. -/
def lastWord : State := placeWord 0x60AB { start with pc := 0xFFE }

theorem witness_StepRunsDecodedInstruction : lastWord.status = .running ∧ lastWord.pc ≠ 0xFFF ∧
    decode (joinBytes (lastWord.mem.read lastWord.pc.toNat) (lastWord.mem.read (lastWord.pc.toNat + 1))) =
      .ok (.acr 0 0xAB) := by decide
theorem witness_StepFollowsInstructionCycle : ({ start with status := .halted } : State).status ≠ .running ∧
    ({ start with pc := 0xFFF } : State).status = .running ∧ start.status = .running ∧ start.pc ≠ 0xFFF := by decide
theorem witness_IllegalWordAlertsAndAdvances : ∀ pc ∈ [0x010#12, 0xFFE#12], ∀ i,
    decode (joinBytes ((placeWord 0x00E0 { start with pc := pc }).mem.read pc.toNat)
      ((placeWord 0x00E0 { start with pc := pc }).mem.read (pc.toNat + 1))) ≠ .ok i := by
  have h : ∀ pc ∈ [0x010#12, 0xFFE#12], decode (joinBytes ((placeWord 0x00E0 { start with pc := pc }).mem.read pc.toNat)
      ((placeWord 0x00E0 { start with pc := pc }).mem.read (pc.toNat + 1))) = .error (.illegalWord 0x00E0) := by
    decide
  intro pc hpc i hi
  rw [h pc hpc] at hi
  cases hi
theorem witness_AdvanceFollowsRule : (4 : Nat) = 2 ∨ (4 : Nat) = 4 := by decide
theorem witness_StoppedRunNeverChanges :
    (nextOf (runCycles 1 State.reset)).map (fun t => t.status) = some .halted := by decide
theorem witness_RetPopsOrUnderflows :
    (withStack 1 start).stack = [] ++ [0x002] ∧ full.stack = List.replicate 14 0x002 ++ [0x002] ∧
    full.stack ≠ [] ∧ start.stack = [] := by
  decide
/-- For CallPushesAndJumps and CallrPushesAndJumps, each clause at its boundary. -/
theorem witness_calls : start.stack.length < 16 ∧ full.stack.length = 15 ∧ (withStack 16 start).stack.length = 16 := by
  decide
theorem witness_CallThenRetReturns :
    exec (.call 0x123) full = .next { full with pc := 0x123, stack := full.stack ++ [0x012] } ∧
    ({ State.reset with stack := full.stack ++ [0x012] } : State).stack =
      ({ full with pc := 0x123, stack := full.stack ++ [0x012] } : State).stack := ⟨rfl, rfl⟩
/-- For ShlResult's flag: the count 0 and the largest one. -/
theorem witness_shift_counts : (0 : Fin 16) = 0 ∧ (15 : Fin 16) ≠ 0 := by decide
theorem witness_SplStoresRegister : ({ full with mp := 0xFFE, pc := 0 } : State).Inv ∧
    ({ full with mp := 0xFFF, pc := 0 } : State).Inv ∧ (0xFFE#12).toNat ≤ 0xFFE ∧ (0xFFF#12).toNat = 0xFFF :=
  ⟨witness_inv_full _ _, witness_inv_full _ _, by decide, by decide⟩
theorem witness_LdLoadsRegisters : (0 : Reg) ≤ 1 ∧ (0xFFE#12).toNat + 2 * (0 : Reg).val + 2 ≤ 4096 ∧
    ¬ ((1 : Reg) ≤ 1 ∧ (0xFFE#12).toNat + 2 * (1 : Reg).val + 2 ≤ 4096) ∧ ¬ ((2 : Reg) ≤ 1) := by decide
theorem witness_SplThenLdRoundTrip : ({ full with mp := 0xFFE, pc := 0 } : State).Inv ∧ (0xFFE#12).toNat ≤ 0xFFE :=
  ⟨witness_inv_full _ _, by decide⟩
theorem witness_StoreIsSeenByNextFetch : ({ full with mp := 0xFFE, pc := 0xFFC } : State).Inv ∧
    full.status = .running ∧ (0xFFC#12).toNat + 2 = (0xFFE#12).toNat ∧
    ((nextOf (exec (.spl 3) { full with mp := 0xFFE, pc := 0xFFC })).isSome = true) ∧
    decode (readReg 3 full) = .ok (.shr 10 11) :=
  ⟨witness_inv_full _ _, rfl, rfl, by decide, by decide +kernel⟩
/-- For WriteSendsWindow, ReadStoresReply, DpsSetsDevicePointer and DpgReadsDevicePointer: a bound and an
empty slot, and the largest range that fits beside the first that is cut. -/
theorem witness_device_instructions : readSlot 1 full = some (.memExt ⟨[(0xFFFF, 0x5A)], 0xFFFF⟩) ∧
    readSlot 15 full = none ∧ ({ full with mp := 0xF01, pc := 0 } : State).Inv ∧
    ({ full with mp := 0xF02, pc := 0 } : State).Inv ∧ ¬ (0xF01#12).toNat + 255 > 4096 ∧
    (0xF02#12).toNat + 255 > 4096 :=
  ⟨by decide, by decide +kernel, witness_inv_full _ _, witness_inv_full _ _, by decide, by decide⟩
/-- For ConsolePrintsDecimal and ConsolePrintsHexadecimal. -/
theorem witness_ConsolePrints : (⟨0, [], []⟩ : Console).fmt = 0 ∧ (⟨1, [], []⟩ : Console).fmt = 1 ∧
    '9' ∈ "0123456789".toList := by decide
theorem witness_ConsoleReadParsesToken : (token " 7F ".toList ≠ [] ∧ ∀ ch ∈ token " 7F ".toList, isDigitOf 1 ch) ∧
    ¬ (∀ ch ∈ token " 7F ".toList, isDigitOf 0 ch) ∧ token "  ".toList = [] := by
  have h : token " 7F ".toList = ['7', 'F'] := by decide
  rw [h]
  refine ⟨?_, ?_, by decide⟩ <;> simp [isDigitOf]
/-- For the clause on the token of a line: all six white characters, a token with a blank inside, and a line
of white space only. -/
theorem witness_ConsoleReadParsesToken_trims :
    (∀ ch ∈ [Char.ofNat 32, Char.ofNat 9, Char.ofNat 10, Char.ofNat 11, Char.ofNat 12] ++ [Char.ofNat 13],
      isWhite ch) ∧ isTrimmed ['7', ' ', 'F'] ∧ isTrimmed [] := by
  refine ⟨by simp [isWhite], fun c h => ?_, fun c h => by simp at h⟩
  rcases h with h | h <;> cases h <;> simp [isWhite]
/-- For ReadStoresReply's clause on a failing read. -/
theorem witness_ReadStoresReply_fails : readSlot 0 full = some (.console ⟨0, [], []⟩) ∧
    (deviceRead (.console ⟨0, [], []⟩) 2).fault = true := by decide
theorem witness_ConsoleReadsBackItsText :
    (consoleWrite ⟨0, [], ['x']⟩ [0x00, 0x2A]).state.output = ['x'] ++ ['4', '2'] ∧
    (consoleWrite ⟨1, [], ['x']⟩ [0x2A]).state.output = ['x'] ++ ['2', 'A'] ∧ [0x2A#8] ≠ [] := by decide
theorem witness_MemExtWriteCopies : Memory.wf 65536 [(0xFFFF, 0x5A)] = true ∧
    (List.replicate 255 (0x01 : Byte)).length ≤ 255 ∧
    (∀ i, i < 2 → 1 ≠ ((0xFFFF#16).toNat + i) % 65536) := ⟨by decide, by rw [List.length_replicate], by decide⟩
theorem witness_RomIsReadOnly : (⟨true, [], 0⟩ : Rom).present = true ∧ (⟨false, [], 0⟩ : Rom).present = false := by
  decide
theorem witness_StepKeepsInvariant : full.Inv ∧ (nextOf (step full)).isSome = true :=
  ⟨witness_inv_full 0 0x010, by decide⟩
theorem witness_ResetFollowsParameters :
    (ResetParams.default.image.length ≤ 4096 ∧ (ResetParams.default.romImage.getD []).length ≤ 65536) ∧
    ¬ ((List.replicate 4097 (0 : Byte)).length ≤ 4096) ∧ ¬ ((List.replicate 65537 (0 : Byte)).length ≤ 65536) := by
  refine ⟨by decide, ?_, ?_⟩ <;> rw [List.length_replicate] <;> omega
theorem witness_DevicesAtReset : ResetParams.default.romImage = none ∧
    ({ ResetParams.default with romImage := some [1, 0, 3] } : ResetParams).romImage = some [1, 0, 3] := by decide
theorem witness_RegisterUseFollowsTable : (2 : Reg) ∉ regsRead (.add 0 1) ∧ (15 : Reg) ∉ regsRead (.add 0 1) ∧
    (nextOf (exec (.add 0 1) full)).isSome = true := by decide
theorem witness_AlertIsSticky : ({ start with alert := true } : State).alert = true ∧
    (nextOf (runCycles 1 { start with alert := true })).isSome = true := by decide
theorem witness_BindingsAndRomContentsAreConstant : (nextOf (runCycles 1 full)).isSome = true ∧
    (readSlot 2 full).map Device.kind = some .rom := by decide
/-- For OnlySplAndReadWriteMemory, OnlySmpAndMparWriteMp and OnlyCallsAndRetMoveStack. -/
theorem witness_only_writers : (nextOf (exec (.add 0 1) full)).isSome = true ∧
    (nextOf (exec .ret full)).map (fun t => t.stack.length) = some 14 ∧
    (nextOf (exec (.call 0) full)).map (fun t => t.stack.length) = some 16 := by decide
theorem witness_DevicesActOnlyInTheirOwnSlot :
    (nextOf (exec (.dps 1) full)).map (fun t => decide (readSlot 1 t ≠ readSlot 1 full)) = some true := by
  decide
theorem witness_RunEndsOnlyAsListed :
    (nextOf (step lastWord)).map (fun t => t.status) = some .outOfBounds ∧
    (nextOf (step (placeWord 0x0000 start))).map (fun t => t.status) = some .halted ∧
    (nextOf (step { start with pc := 0xFFF })).map (fun t => t.status) = some .outOfBounds := by decide
theorem witness_TerminalStatusTable : start.status = .running ∧
    ({ start with status := .halted, alert := true } : State).status = .halted ∧
    ({ start with status := .outOfBounds } : State).status = .outOfBounds ∧ start.alert = false := by decide
theorem witness_PlacedWordRunsNext : ({ full with mp := 0, pc := 0xFFF } : State).Inv ∧
    (Instr.shl 10 15).wellFormed = true := ⟨witness_inv_full _ _, by decide⟩

end Sys2Proof.Tests
end

/-! SUPPORT. The decoder follows the opcode map (spec 30_encoding.md R54, R55): what the four masks of
the map compare, what the decoder answers for each value of the fields, and from these obligation O3. -/

namespace Sys2Proof.Proofs

/-! ## What a row compares

The code of a row holds no bit outside its mask (`c &&& mask = c`), so a word matches the row when it
agrees with the code on the fields under the mask. -/

theorem rowMatches_iff {w code mask : Word} {name : String} :
    rowMatches w ⟨name, code, mask⟩ = true ↔ w &&& mask = code := by
  rw [rowMatches, decide_eq_true_iff]

/-- A row of format W fixes the whole word. -/
theorem rowMatches_maskWord {w c : Word} {name : String} : rowMatches w ⟨name, c, 0xFFFF#16⟩ = true ↔ w = c := by
  rw [rowMatches_iff, show w &&& 0xFFFF#16 = w from BitVec.and_allOnes]

/-- A row of format A or I fixes P. -/
theorem rowMatches_maskP {w c : Word} {name : String} (hc : c &&& 0xF000#16 = c) :
    rowMatches w ⟨name, c, 0xF000#16⟩ = true ↔ (fieldP w).toNat = (fieldP c).toNat := by
  have hcode := congrArg BitVec.toNat hc
  rw [and_maskP_toNat] at hcode
  rw [rowMatches_iff, ← BitVec.toNat_inj, and_maskP_toNat, fieldP_toNat, fieldP_toNat]
  omega

/-- A row of format R fixes P and Q. -/
theorem rowMatches_maskPQ {w c : Word} {name : String} (hc : c &&& 0xF00F#16 = c) :
    rowMatches w ⟨name, c, 0xF00F#16⟩ = true ↔
      (fieldP w).toNat = (fieldP c).toNat ∧ (fieldQ w).toNat = (fieldQ c).toNat := by
  have hcode := congrArg BitVec.toNat hc
  rw [and_maskPQ_toNat] at hcode
  rw [rowMatches_iff, ← BitVec.toNat_inj, and_maskPQ_toNat, fieldP_toNat, fieldP_toNat, fieldQ_toNat, fieldQ_toNat]
  omega

/-- A row of format E fixes P and RR. -/
theorem rowMatches_maskPRR {w c : Word} {name : String} (hc : c &&& 0xF0FF#16 = c) :
    rowMatches w ⟨name, c, 0xF0FF#16⟩ = true ↔
      (fieldP w).toNat = (fieldP c).toNat ∧ (fieldNN w).toNat = (fieldNN c).toNat := by
  have hcode := congrArg BitVec.toNat hc
  rw [and_maskPRR_toNat] at hcode
  rw [rowMatches_iff, ← BitVec.toNat_inj, and_maskPRR_toNat, fieldP_toNat, fieldP_toNat, fieldNN_toNat, fieldNN_toNat]
  omega

/-! ## What the decoder answers (R54) -/

section
variable {w : Word}

theorem decode_eq_goto (hP : (fieldP w).toNat = 0x1) : decode w = .ok (.goto (fieldNNN w)) := by simp only [decode, hP]
theorem decode_eq_call (hP : (fieldP w).toNat = 0x2) : decode w = .ok (.call (fieldNNN w)) := by simp only [decode, hP]
theorem decode_eq_snec (hP : (fieldP w).toNat = 0x3) : decode w = .ok (.snec (fieldX w) (fieldNN w)) := by
  simp only [decode, hP]
theorem decode_eq_snuec (hP : (fieldP w).toNat = 0x4) : decode w = .ok (.snuec (fieldX w) (fieldNN w)) := by
  simp only [decode, hP]
theorem decode_eq_sne (hP : (fieldP w).toNat = 0x5) (hQ : fieldQ w = 0#4) :
    decode w = .ok (.sne (fieldX w) (fieldY w)) := by
  simp only [decode, hP, hQ, if_true]
theorem decode_eq_acr (hP : (fieldP w).toNat = 0x6) : decode w = .ok (.acr (fieldX w) (fieldNN w)) := by
  simp only [decode, hP]
theorem decode_eq_adc (hP : (fieldP w).toNat = 0x7) : decode w = .ok (.adc (fieldX w) (fieldNN w)) := by
  simp only [decode, hP]
theorem decode_eq_group8 (hP : (fieldP w).toNat = 0x8) : decode w = decodeGroup8 w := by simp only [decode, hP]
theorem decode_eq_snue (hP : (fieldP w).toNat = 0x9) (hQ : fieldQ w = 0#4) :
    decode w = .ok (.snue (fieldX w) (fieldY w)) := by
  simp only [decode, hP, hQ, if_true]
theorem decode_eq_smp (hP : (fieldP w).toNat = 0xA) : decode w = .ok (.smp (fieldNNN w)) := by simp only [decode, hP]
theorem decode_eq_cpac (hP : (fieldP w).toNat = 0xB) : decode w = .ok (.cpac (fieldNNN w)) := by simp only [decode, hP]
theorem decode_eq_bar (hP : (fieldP w).toNat = 0xC) : decode w = .ok (.bar (fieldX w) (fieldNN w)) := by
  simp only [decode, hP]
theorem decode_eq_write (hP : (fieldP w).toNat = 0xD) : decode w = .ok (.write (fieldX w) (fieldNN w).toNat) := by
  simp only [decode, hP]
theorem decode_eq_groupE (hP : (fieldP w).toNat = 0xE) : decode w = decodeGroupE w := by simp only [decode, hP]
theorem decode_eq_read (hP : (fieldP w).toNat = 0xF) : decode w = .ok (.read (fieldX w) (fieldNN w).toNat) := by
  simp only [decode, hP]

end

/-! ## From the decoder to the map -/

theorem rowMatches_of_decodeGroup8 {w : Word} {i : Instr} (hP : (fieldP w).toNat = 0x8)
    (h : decodeGroup8 w = .ok i) : rowMatches w (opcodeRow i) = true := by
  unfold decodeGroup8 at h
  split at h <;> cases h
  all_goals exact (rowMatches_maskPQ (by rfl)).2 ⟨hP, ‹_›⟩

theorem rowMatches_of_decodeGroupE {w : Word} {i : Instr} (hP : (fieldP w).toNat = 0xE)
    (h : decodeGroupE w = .ok i) : rowMatches w (opcodeRow i) = true := by
  unfold decodeGroupE at h
  split at h <;> cases h
  all_goals exact (rowMatches_maskPRR (by rfl)).2 ⟨hP, ‹_›⟩

/-- A word that decodes matches the row of its instruction: by the branches of the decoder. -/
theorem rowMatches_of_decode {w : Word} {i : Instr} (h : decode w = .ok i) : rowMatches w (opcodeRow i) = true := by
  unfold decode at h
  split at h
  case h_1 =>
    split at h
    · cases h; exact rowMatches_maskWord.2 ‹_›
    · split at h <;> cases h
      exact rowMatches_maskWord.2 ‹_›
  case h_6 hP | h_10 hP =>
    split at h <;> cases h
    exact (rowMatches_maskPQ (by rfl)).2 ⟨hP, congrArg BitVec.toNat ‹fieldQ w = 0#4›⟩
  case h_9 hP => exact rowMatches_of_decodeGroup8 hP h
  case h_15 hP => exact rowMatches_of_decodeGroupE hP h
  case h_17 => cases h
  all_goals cases h; exact (rowMatches_maskP (by rfl)).2 ‹_›

/-! ## From the map to the decoder -/

/-- A word that matches the row of `j` decodes to an instruction of the kind of `j`: by the rows. -/
theorem decode_of_rowMatches {w : Word} (j : Instr) (h : rowMatches w (opcodeRow j) = true) :
    ∃ i, decode w = .ok i ∧ opcodeRow i = opcodeRow j := by
  cases j with
  | halt => cases rowMatches_maskWord.1 h; exact ⟨_, rfl, rfl⟩
  | ret => cases rowMatches_maskWord.1 h; exact ⟨_, rfl, rfl⟩
  | goto => exact ⟨_, decode_eq_goto ((rowMatches_maskP (by rfl)).1 h), rfl⟩
  | call => exact ⟨_, decode_eq_call ((rowMatches_maskP (by rfl)).1 h), rfl⟩
  | snec => exact ⟨_, decode_eq_snec ((rowMatches_maskP (by rfl)).1 h), rfl⟩
  | snuec => exact ⟨_, decode_eq_snuec ((rowMatches_maskP (by rfl)).1 h), rfl⟩
  | acr => exact ⟨_, decode_eq_acr ((rowMatches_maskP (by rfl)).1 h), rfl⟩
  | adc => exact ⟨_, decode_eq_adc ((rowMatches_maskP (by rfl)).1 h), rfl⟩
  | smp => exact ⟨_, decode_eq_smp ((rowMatches_maskP (by rfl)).1 h), rfl⟩
  | cpac => exact ⟨_, decode_eq_cpac ((rowMatches_maskP (by rfl)).1 h), rfl⟩
  | bar => exact ⟨_, decode_eq_bar ((rowMatches_maskP (by rfl)).1 h), rfl⟩
  | write => exact ⟨_, decode_eq_write ((rowMatches_maskP (by rfl)).1 h), rfl⟩
  | read => exact ⟨_, decode_eq_read ((rowMatches_maskP (by rfl)).1 h), rfl⟩
  | sne =>
    obtain ⟨hP, hQ⟩ := (rowMatches_maskPQ (by rfl)).1 h
    exact ⟨_, decode_eq_sne hP (BitVec.eq_of_toNat_eq hQ), rfl⟩
  | snue =>
    obtain ⟨hP, hQ⟩ := (rowMatches_maskPQ (by rfl)).1 h
    exact ⟨_, decode_eq_snue hP (BitVec.eq_of_toNat_eq hQ), rfl⟩
  | ar | or | and | xor | add | sub | shr | rsub | shl =>
    obtain ⟨hP, hQ⟩ := (rowMatches_maskPQ (by rfl)).1 h
    rw [decode_eq_group8 hP, decodeGroup8, hQ]
    exact ⟨_, rfl, rfl⟩
  | dps | dpg | callr | rmp | mpar | spl | ld =>
    obtain ⟨hP, hRR⟩ := (rowMatches_maskPRR (by rfl)).1 h
    rw [decode_eq_groupE hP, decodeGroupE, hRR]
    exact ⟨_, rfl, rfl⟩

/-- The same for a row taken from the table, each of which is the row of an instruction. -/
theorem decode_of_mem_opcodeTable {w : Word} {r : OpcodeRow} (hr : r ∈ opcodeTable) (h : rowMatches w r = true) :
    ∃ i, decode w = .ok i ∧ opcodeRow i = r := by
  obtain ⟨j, -, rfl⟩ := List.mem_map.1 hr
  exact decode_of_rowMatches j h

/-- Settles O3. No word matches two rows because the decoder has one answer, and that is an instruction
of each row the word matches. -/
theorem decodeFollowsOpcodeMap : Obligations.DecodeFollowsOpcodeMap := by
  refine ⟨fun w i => rowMatches_of_decode, fun w r => decode_of_mem_opcodeTable, ?_⟩
  intro w r r' hr hr' h h'
  obtain ⟨i, hi, rfl⟩ := decode_of_mem_opcodeTable hr h
  obtain ⟨i', hi', rfl⟩ := decode_of_mem_opcodeTable hr' h'
  have hsame : i = i' := Except.ok.inj (hi.symm.trans hi')
  rw [hsame]

end Sys2Proof.Proofs

/-! SUPPORT. The jumps GOTO and CPAC (spec 40_cycle_and_control.md R76, R78): what the words of format A
decode to, what the two instructions do to the state, and from these obligations O14 and O16. -/

namespace Sys2Proof.Proofs

/-! ## The words (R55) -/

theorem decode_formatA_goto (nnn : Addr) : decode (formatA 0x1 nnn) = .ok (.goto nnn) := by
  rw [decode_eq_goto (congrArg BitVec.toNat (fieldP_formatA 0x1 nnn)), fieldNNN_formatA]

theorem decode_formatA_cpac (nnn : Addr) : decode (formatA 0xB nnn) = .ok (.cpac nnn) := by
  rw [decode_eq_cpac (congrArg BitVec.toNat (fieldP_formatA 0xB nnn)), fieldNNN_formatA]

/-! ## The instructions -/

section
open Sys2Proof.Machine

theorem exec_goto (nnn : Addr) (s : State) : exec (.goto nnn) s = .next { s with pc := nnn } := rfl

theorem exec_cpac (nnn : Addr) (s : State) :
    exec (.cpac nnn) s = .next { s with pc := addrPlusWord nnn (readReg 0 s) } := rfl

/-- The 17 bits of `addrPlusWord` hold the sum of a 12-bit and a 16-bit number whole, so the only
reduction is the one modulo 4096. -/
theorem addrPlusWord_toNat (a : Addr) (v : Word) : (addrPlusWord a v).toNat = (v.toNat + a.toNat) % 4096 := by
  have hsum : (v.setWidth 17 + a.setWidth 17 : BitVec 17).toNat = v.toNat + a.toNat := by
    rw [BitVec.toNat_add, BitVec.toNat_setWidth_of_le (by decide), BitVec.toNat_setWidth_of_le (by decide)]
    omega
  rw [addrPlusWord, BitVec.extractLsb'_toNat, hsum, Nat.shiftRight_zero]

end

/-! ## The obligations -/

/-- Settles O16. The target the statement asks for is the sum the machine takes in 17 bits. -/
theorem cpacJumps : Obligations.CpacJumps := fun nnn =>
  ⟨decode_formatA_cpac nnn, fun s => ⟨_, addrPlusWord_toNat nnn _, exec_cpac nnn s⟩⟩

/-- Settles O14. -/
theorem gotoJumps : Obligations.GotoJumps := fun nnn => ⟨decode_formatA_goto nnn, exec_goto nnn⟩

end Sys2Proof.Proofs

/-! SUPPORT. The skips SNEC, SNUEC, SNE and SNUE (spec 41_skips.md R85 to R89): what their words decode
to, what the sequential advance does in the terms of the statements, that a skip is an advance by 4 or
by 2, and from these obligations O19 and O20. -/

namespace Sys2Proof.Proofs

/-! ## The words (R55) -/

theorem decode_formatI_snec (x : Reg) (nn : Byte) : decode (formatI 0x3 x nn) = .ok (.snec x nn) := by
  rw [decode_eq_snec (congrArg BitVec.toNat (fieldP_formatI 0x3 x nn)), fieldX_formatI, fieldNN_formatI]

theorem decode_formatI_snuec (x : Reg) (nn : Byte) : decode (formatI 0x4 x nn) = .ok (.snuec x nn) := by
  rw [decode_eq_snuec (congrArg BitVec.toNat (fieldP_formatI 0x4 x nn)), fieldX_formatI, fieldNN_formatI]

/-! The fields of format R, whose low byte is made of Y and Q. -/

theorem fieldP_formatR (p : BitVec 4) (x y : Fin 16) (q : BitVec 4) : fieldP (formatR p x y q) = p :=
  fieldP_formatI p x _

theorem fieldX_formatR (p : BitVec 4) (x y : Fin 16) (q : BitVec 4) : fieldX (formatR p x y q) = x :=
  fieldX_formatI p x _

theorem fieldY_formatR (p : BitVec 4) (x y : Fin 16) (q : BitVec 4) : fieldY (formatR p x y q) = y :=
  fieldY_formatI p x (nibble y) q

theorem fieldQ_formatR (p : BitVec 4) (x y : Fin 16) (q : BitVec 4) : fieldQ (formatR p x y q) = q :=
  fieldQ_formatI p x (nibble y) q

theorem decode_formatR_sne (x y : Reg) : decode (formatR 0x5 x y 0x0) = .ok (.sne x y) := by
  rw [decode_eq_sne (congrArg BitVec.toNat (fieldP_formatR 0x5 x y 0x0)) (fieldQ_formatR 0x5 x y 0x0),
    fieldX_formatR, fieldY_formatR]

theorem decode_formatR_snue (x y : Reg) : decode (formatR 0x9 x y 0x0) = .ok (.snue x y) := by
  rw [decode_eq_snue (congrArg BitVec.toNat (fieldP_formatR 0x9 x y 0x0)) (fieldQ_formatR 0x9 x y 0x0),
    fieldX_formatR, fieldY_formatR]

section
open Sys2Proof.Machine

/-! ## The sequential advance (R72) -/

theorem advanced_advance {k : Nat} (hk : k ≤ 4096) (s : State) : Advanced k s (advance k s) where
  pc hin := (advance_pc_toNat k s).trans (Nat.mod_eq_of_lt hin)
  status := advance_status_eq k s hk

theorem onlyRegs_advance (k : Nat) (s : State) : OnlyRegs [] s (advance k s) where
  regs r _ := readReg_advance r k s
  mp := advance_mp k s
  alert := advance_alert k s
  stack := advance_stack k s
  mem a := by rw [advance_mem]
  dev j := readSlot_advance j k s
  draws := advance_draws k s

/-! ## A skip (R89) -/

theorem skipWhen_eq_advance (c : Bool) (s : State) : skipWhen c s = advance (if c then 4 else 2) s := by
  cases c <;> rfl

theorem onlyRegs_skipWhen (c : Bool) (s : State) : OnlyRegs [] s (skipWhen c s) := by
  rw [skipWhen_eq_advance]
  exact onlyRegs_advance _ s

/-- How far a skip goes, for a condition stated in other words than the machine's test. -/
theorem advanced_skipWhen {c : Bool} {P : Prop} [Decidable P] (hc : c = true ↔ P) (s : State) :
    Advanced (if P then 4 else 2) s (skipWhen c s) := by
  rw [skipWhen_eq_advance, if_congr hc rfl rfl]
  refine advanced_advance ?_ s
  split <;> decide

/-- The same for the two instructions that skip when their operands differ. -/
theorem advanced_skipWhen_not {c : Bool} {P : Prop} [Decidable P] (hc : c = true ↔ ¬ P) (s : State) :
    Advanced (if P then 2 else 4) s (skipWhen c s) := by
  rw [← ite_not]
  exact advanced_skipWhen hc s

/-! ## The instructions -/

/-- The test of SNEC and SNUEC over numbers: zero extension keeps the number, so all 16 bits of the
register count. -/
theorem eq_immWord_iff (v : Word) (nn : Byte) : v = immWord nn ↔ v.toNat = nn.toNat := by
  rw [← BitVec.toNat_inj, immWord, BitVec.toNat_setWidth_of_le (by decide)]

theorem exec_snec (x : Reg) (nn : Byte) (s : State) :
    exec (.snec x nn) s = .next (skipWhen (decide (readReg x s = immWord nn)) s) := rfl

theorem exec_snuec (x : Reg) (nn : Byte) (s : State) :
    exec (.snuec x nn) s = .next (skipWhen (decide (readReg x s ≠ immWord nn)) s) := rfl

theorem exec_sne (x y : Reg) (s : State) :
    exec (.sne x y) s = .next (skipWhen (decide (readReg x s = readReg y s)) s) := rfl

theorem exec_snue (x y : Reg) (s : State) :
    exec (.snue x y) s = .next (skipWhen (decide (readReg x s ≠ readReg y s)) s) := rfl

end

/-! ## The obligations -/

/-- Settles O19. -/
theorem constantSkips : Obligations.ConstantSkips := by
  intro x nn
  refine ⟨decode_formatI_snec x nn, decode_formatI_snuec x nn, fun s => ?_⟩
  have htest := eq_immWord_iff (Machine.readReg x s) nn
  constructor
  · exact ⟨_, exec_snec x nn s, onlyRegs_skipWhen _ s, advanced_skipWhen (decide_eq_true_iff.trans htest) s⟩
  · exact ⟨_, exec_snuec x nn s, onlyRegs_skipWhen _ s,
      advanced_skipWhen_not (decide_eq_true_iff.trans (not_congr htest)) s⟩

/-- Settles O20. -/
theorem registerSkips : Obligations.RegisterSkips := by
  intro x y
  refine ⟨decode_formatR_sne x y, decode_formatR_snue x y, fun s => ⟨?_, ?_⟩⟩
  · exact ⟨_, exec_sne x y s, onlyRegs_skipWhen _ s, advanced_skipWhen decide_eq_true_iff s⟩
  · exact ⟨_, exec_snue x y s, onlyRegs_skipWhen _ s, advanced_skipWhen_not decide_eq_true_iff s⟩

end Sys2Proof.Proofs

/-! SUPPORT. The register and ALU instructions (spec 42_register_alu.md R91 to R101, R103, R104): what
their words decode to, that frames compose, what `finish` and `finishWithFlag` do to the state whatever
the instruction, the results and flags over numbers, and from these obligations O21 to O27. -/

namespace Sys2Proof.Proofs

/-! ## The words (R55) -/

theorem decode_formatI_acr (x : Reg) (nn : Byte) : decode (formatI 0x6 x nn) = .ok (.acr x nn) := by
  rw [decode_eq_acr (congrArg BitVec.toNat (fieldP_formatI 0x6 x nn)), fieldX_formatI, fieldNN_formatI]

theorem decode_formatI_adc (x : Reg) (nn : Byte) : decode (formatI 0x7 x nn) = .ok (.adc x nn) := by
  rw [decode_eq_adc (congrArg BitVec.toNat (fieldP_formatI 0x7 x nn)), fieldX_formatI, fieldNN_formatI]

/-- A word of group 8 decodes by its Q alone; X and Y are handed on as they stand. -/
theorem decode_formatR_group8 {q : BitVec 4} (i : Fin 16 → Fin 16 → Instr)
    (h : ∀ w, fieldQ w = q → decodeGroup8 w = .ok (i (fieldX w) (fieldY w))) (x y : Fin 16) :
    decode (formatR 0x8 x y q) = .ok (i x y) := by
  rw [decode_eq_group8 (congrArg BitVec.toNat (fieldP_formatR 0x8 x y q)), h _ (fieldQ_formatR 0x8 x y q),
    fieldX_formatR, fieldY_formatR]

theorem decode_formatR_ar (x y : Fin 16) : decode (formatR 0x8 x y 0x0) = .ok (.ar x y) :=
  decode_formatR_group8 .ar (fun w hQ => by rw [decodeGroup8, hQ]; rfl) x y

theorem decode_formatR_or (x y : Fin 16) : decode (formatR 0x8 x y 0x1) = .ok (.or x y) :=
  decode_formatR_group8 .or (fun w hQ => by rw [decodeGroup8, hQ]; rfl) x y

theorem decode_formatR_and (x y : Fin 16) : decode (formatR 0x8 x y 0x2) = .ok (.and x y) :=
  decode_formatR_group8 .and (fun w hQ => by rw [decodeGroup8, hQ]; rfl) x y

theorem decode_formatR_xor (x y : Fin 16) : decode (formatR 0x8 x y 0x3) = .ok (.xor x y) :=
  decode_formatR_group8 .xor (fun w hQ => by rw [decodeGroup8, hQ]; rfl) x y

theorem decode_formatR_add (x y : Fin 16) : decode (formatR 0x8 x y 0x4) = .ok (.add x y) :=
  decode_formatR_group8 .add (fun w hQ => by rw [decodeGroup8, hQ]; rfl) x y

theorem decode_formatR_sub (x y : Fin 16) : decode (formatR 0x8 x y 0x5) = .ok (.sub x y) :=
  decode_formatR_group8 .sub (fun w hQ => by rw [decodeGroup8, hQ]; rfl) x y

theorem decode_formatR_shr (x y : Fin 16) : decode (formatR 0x8 x y 0x6) = .ok (.shr x y.val) :=
  decode_formatR_group8 (fun x y => .shr x y.val) (fun w hQ => by rw [decodeGroup8, hQ]; rfl) x y

theorem decode_formatR_rsub (x y : Fin 16) : decode (formatR 0x8 x y 0x7) = .ok (.rsub x y) :=
  decode_formatR_group8 .rsub (fun w hQ => by rw [decodeGroup8, hQ]; rfl) x y

theorem decode_formatR_shl (x y : Fin 16) : decode (formatR 0x8 x y 0xE) = .ok (.shl x y.val) :=
  decode_formatR_group8 (fun x y => .shl x y.val) (fun w hQ => by rw [decodeGroup8, hQ]; rfl) x y

section
open Sys2Proof.Machine

/-! ## Frames -/

/-- Two changes after one another touch the registers of both. -/
theorem onlyRegs_trans {ws ws' : List Reg} {s t u : State} (h : OnlyRegs ws s t) (h' : OnlyRegs ws' t u) :
    OnlyRegs (ws ++ ws') s u where
  regs r hr := by
    rw [List.mem_append, not_or] at hr
    exact (h'.regs r hr.2).trans (h.regs r hr.1)
  mp := h'.mp.trans h.mp
  alert := h'.alert.trans h.alert
  stack := h'.stack.trans h.stack
  mem a := (h'.mem a).trans (h.mem a)
  dev k := (h'.dev k).trans (h.dev k)
  draws := h'.draws.trans h.draws

theorem onlyRegs_writeReg (x : Reg) (v : Word) (s : State) : OnlyRegs [x] s (writeReg x v s) where
  regs r hr := by rw [readReg_writeReg, if_neg (mt List.mem_singleton.2 hr)]
  mp := rfl
  alert := rfl
  stack := rfl
  mem _ := rfl
  dev _ := rfl
  draws := rfl

theorem onlyRegs_writeResultThenFlag (x : Reg) (v : Word) (f : Bool) (s : State) :
    OnlyRegs [x, 15] s (writeResultThenFlag x v f s) :=
  onlyRegs_trans (onlyRegs_writeReg x v s) (onlyRegs_writeReg flagReg (flagWord f) (writeReg x v s))

/-- The advance depends on `pc` and `status` only, so it may follow any change of other fields. -/
theorem advanced_advance_of_eq {k : Nat} {s t : State} (hk : k ≤ 4096) (hpc : t.pc = s.pc)
    (hstatus : t.status = s.status) : Advanced k s (advance k t) := by
  obtain ⟨hadv, hend⟩ := advanced_advance hk t
  rw [hpc] at hadv hend
  rw [hstatus] at hend
  exact ⟨hadv, hend⟩

/-! ## The two ways an instruction ends (R103) -/

/-- A result without a flag, for any value. -/
theorem finish_writesOnly (x : Reg) (v : Word) (s : State) : ∃ t, finish x v s = .next t ∧ WritesOnly x v s t :=
  ⟨_, rfl, {
    value := by rw [readReg_advance, readReg_writeReg, if_pos rfl]
    frame := onlyRegs_trans (onlyRegs_writeReg x v s) (onlyRegs_advance 2 _)
    next := advanced_advance_of_eq (by decide) rfl rfl }⟩

/-- A result with its flag, for any value and any flag, given over numbers. The flag is written last, so
`x[15]` holds it for every X, and the result stands only where X is not 15. -/
theorem finishWithFlag_writesWithFlag {x : Reg} {v : Word} {n : Nat} {f : Bool} {P : Prop} (hv : v.toNat = n)
    (hf : f = true ↔ P) (s : State) : ∃ t, finishWithFlag x v f s = .next t ∧ WritesWithFlag x n P s t := by
  have hflag : readReg 15 (advance 2 (writeResultThenFlag x v f s)) = flagWord f := by
    rw [readReg_advance, readReg_writeResultThenFlag]
    exact if_pos rfl
  exact ⟨_, rfl, {
    value := fun hx => by
      rw [readReg_advance, readReg_writeResultThenFlag, if_neg (show x ≠ flagReg from hx), if_pos rfl, hv]
    set := fun hP => by rw [hflag, hf.2 hP]; rfl
    clear := fun hP => by rw [hflag, eq_false_of_ne_true (mt hf.1 hP)]; rfl
    frame := onlyRegs_trans (onlyRegs_writeResultThenFlag x v f s) (onlyRegs_advance 2 _)
    next := advanced_advance_of_eq (by decide) rfl rfl }⟩

/-! ## Results and flags over numbers -/

/-- Zero extension keeps the number (R53). -/
theorem immWord_eq_ofNat (nn : Byte) : immWord nn = BitVec.ofNat 16 nn.toNat := by
  rw [BitVec.ofNat_toNat, immWord]

theorem add_immWord_eq_ofNat (v : Word) (nn : Byte) : v + immWord nn = BitVec.ofNat 16 (v.toNat + nn.toNat) := by
  rw [BitVec.ofNat_add, BitVec.ofNat_toNat, BitVec.setWidth_eq, immWord_eq_ofNat]

/-- 17 bits hold the sum of two words whole. -/
theorem sum17_toNat (a b : Word) : (sum17 a b).toNat = a.toNat + b.toNat := by
  rw [sum17, BitVec.toNat_add, BitVec.toNat_setWidth_of_le (by decide), BitVec.toNat_setWidth_of_le (by decide)]
  omega

theorem sum17_low_toNat (a b : Word) : ((sum17 a b).extractLsb' 0 16).toNat = (a.toNat + b.toNat) % 65536 := by
  rw [BitVec.extractLsb'_toNat, sum17_toNat, Nat.shiftRight_zero]

theorem sub_toNat (a b : Word) : (a - b).toNat = (a.toNat + (65536 - b.toNat)) % 65536 := by
  rw [BitVec.toNat_sub, Nat.add_comm]

theorem ushiftRight_toNat (a : Word) (count : Nat) : (a >>> count).toNat = a.toNat / 2 ^ count := by
  rw [BitVec.toNat_ushiftRight, Nat.shiftRight_eq_div_pow]

theorem shiftLeft_toNat (a : Word) (count : Nat) : (a <<< count).toNat = a.toNat * 2 ^ count % 65536 := by
  rw [BitVec.toNat_shiftLeft, Nat.shiftLeft_eq]

theorem getLsbD_iff {w : Nat} (a : BitVec w) (i : Nat) : a.getLsbD i = true ↔ a.toNat / 2 ^ i % 2 = 1 := by
  rw [← BitVec.testBit_toNat, Nat.testBit_eq_decide_div_mod_eq, decide_eq_true_iff]

/-- Bit 16 of the sum is the carry, since the sum stays below 2 * 65536. -/
theorem carryFlag_iff (a b : Word) : carryFlag a b = true ↔ a.toNat + b.toNat > 0xFFFF := by
  rw [carryFlag, getLsbD_iff, sum17_toNat]
  omega

theorem noBorrowFlag_iff (a b : Word) : noBorrowFlag a b = true ↔ a.toNat ≥ b.toNat := decide_eq_true_iff

theorem shrFlag_iff (a : Word) (count : Nat) : shrFlag a count = true ↔ a.toNat / 2 ^ count % 2 = 1 :=
  getLsbD_iff a count

theorem shlFlag_iff (a : Word) (count : Nat) :
    shlFlag a count = true ↔ count ≠ 0 ∧ a.toNat / 2 ^ (16 - count) % 2 = 1 := by
  rw [shlFlag, ← getLsbD_iff]
  split <;> simp [*]

/-! ## The instructions -/

section
variable (x y : Reg) (nn : Byte) (count : Nat) (s : State)

theorem exec_acr : exec (.acr x nn) s = finish x (immWord nn) s := rfl

theorem exec_adc : exec (.adc x nn) s = finish x (readReg x s + immWord nn) s := rfl

theorem exec_ar : exec (.ar x y) s = finish x (readReg y s) s := rfl

theorem exec_or : exec (.or x y) s = finish x (readReg x s ||| readReg y s) s := rfl

theorem exec_and : exec (.and x y) s = finish x (readReg x s &&& readReg y s) s := rfl

theorem exec_xor : exec (.xor x y) s = finish x (readReg x s ^^^ readReg y s) s := rfl

theorem exec_add : exec (.add x y) s = finishWithFlag x ((sum17 (readReg x s) (readReg y s)).extractLsb' 0 16)
    (carryFlag (readReg x s) (readReg y s)) s := rfl

theorem exec_sub : exec (.sub x y) s =
    finishWithFlag x (readReg x s - readReg y s) (noBorrowFlag (readReg x s) (readReg y s)) s := rfl

theorem exec_rsub : exec (.rsub x y) s =
    finishWithFlag x (readReg y s - readReg x s) (noBorrowFlag (readReg y s) (readReg x s)) s := rfl

theorem exec_shr : exec (.shr x count) s =
    finishWithFlag x (readReg x s >>> count) (shrFlag (readReg x s) count) s := rfl

theorem exec_shl : exec (.shl x count) s =
    finishWithFlag x (readReg x s <<< count) (shlFlag (readReg x s) count) s := rfl

end

end

/-! ## The obligations -/

/-- Settles O21. -/
theorem acrAdcArResults : Obligations.AcrAdcArResults := by
  refine ⟨fun x nn => ⟨decode_formatI_acr x nn, decode_formatI_adc x nn, fun s => ⟨?acr, ?adc⟩⟩,
    fun x y => ⟨decode_formatR_ar x y, fun s => ?ar⟩⟩
  case acr => rw [exec_acr, immWord_eq_ofNat]; exact finish_writesOnly x _ s
  case adc => rw [exec_adc, add_immWord_eq_ofNat]; exact finish_writesOnly x _ s
  case ar => rw [exec_ar]; exact finish_writesOnly x _ s

/-- Settles O22. -/
theorem logicResults : Obligations.LogicResults := by
  intro x y
  refine ⟨decode_formatR_or x y, decode_formatR_and x y, decode_formatR_xor x y, fun s => ⟨?or, ?and, ?xor⟩⟩
  case or => rw [exec_or]; exact finish_writesOnly x _ s
  case and => rw [exec_and]; exact finish_writesOnly x _ s
  case xor => rw [exec_xor]; exact finish_writesOnly x _ s

/-- Settles O23. Result and carry both come from the 17-bit sum of the old values. -/
theorem addResult : Obligations.AddResult := by
  refine fun x y => ⟨decode_formatR_add x y, fun s => ?_⟩
  rw [exec_add]
  exact finishWithFlag_writesWithFlag (sum17_low_toNat _ _) (carryFlag_iff _ _) s

/-- Settles O24. -/
theorem subResult : Obligations.SubResult := by
  refine fun x y => ⟨decode_formatR_sub x y, fun s => ?_⟩
  rw [exec_sub]
  exact finishWithFlag_writesWithFlag (sub_toNat _ _) (noBorrowFlag_iff _ _) s

/-- Settles O25. The operands of SUB are exchanged in the value and in the flag alike. -/
theorem rsubResult : Obligations.RsubResult := by
  refine fun x y => ⟨decode_formatR_rsub x y, fun s => ?_⟩
  rw [exec_rsub]
  exact finishWithFlag_writesWithFlag (sub_toNat _ _) (noBorrowFlag_iff _ _) s

/-- Settles O26. -/
theorem shrResult : Obligations.ShrResult := by
  refine fun x y => ⟨decode_formatR_shr x y, fun s => ?_⟩
  rw [exec_shr]
  exact finishWithFlag_writesWithFlag (ushiftRight_toNat _ _) (shrFlag_iff _ _) s

/-- Settles O27. The statement's `y ≠ 0` is about the 4-bit field, the machine's test about the count. -/
theorem shlResult : Obligations.ShlResult := by
  refine fun x y => ⟨decode_formatR_shl x y, fun s => ?_⟩
  have hflag := (shlFlag_iff (Machine.readReg x s) y.val).trans (and_congr_left' Fin.val_ne_zero_iff)
  rw [exec_shl]
  exact finishWithFlag_writesWithFlag (shiftLeft_toNat _ _) hflag s

end Sys2Proof.Proofs

/-! SUPPORT. The memory pointer instructions SMP, RMP and MPAR (spec 43_memory_pointer.md R110 to R112):
what their words decode to, the frame of a change of `mp`, and from these obligation O29. -/

namespace Sys2Proof.Proofs

/-! ## The words (R55) -/

theorem decode_formatA_smp (nnn : Addr) : decode (formatA 0xA nnn) = .ok (.smp nnn) := by
  rw [decode_eq_smp (congrArg BitVec.toNat (fieldP_formatA 0xA nnn)), fieldNNN_formatA]

/-- A word of group E decodes by its low byte RR alone; X is handed on as it stands. -/
theorem decode_formatI_groupE {rr : Byte} (i : Fin 16 → Instr)
    (h : ∀ w, fieldNN w = rr → decodeGroupE w = .ok (i (fieldX w))) (x : Fin 16) :
    decode (formatI 0xE x rr) = .ok (i x) := by
  rw [decode_eq_groupE (congrArg BitVec.toNat (fieldP_formatI 0xE x rr)), h _ (fieldNN_formatI 0xE x rr),
    fieldX_formatI]

theorem decode_formatI_rmp (x : Reg) : decode (formatI 0xE x 0x1D) = .ok (.rmp x) :=
  decode_formatI_groupE .rmp (fun w hRR => by rw [decodeGroupE, hRR]; rfl) x

theorem decode_formatI_mpar (x : Reg) : decode (formatI 0xE x 0x1E) = .ok (.mpar x) :=
  decode_formatI_groupE .mpar (fun w hRR => by rw [decodeGroupE, hRR]; rfl) x

section
open Sys2Proof.Machine

/-! ## A change of the memory pointer -/

/-- The frame says of `mp` only that both states hold the same one, so it stands for any common `mp`. -/
theorem onlyRegs_withMp {ws : List Reg} {s t : State} (h : OnlyRegs ws s t) (a : Addr) :
    OnlyRegs ws { s with mp := a } { t with mp := a } :=
  { h with mp := rfl }

/-- Past the new `mp`, an instruction that sets it and advances changes what the advance changes. -/
theorem onlyRegs_setMp_advance (k : Nat) (a : Addr) (s : State) :
    OnlyRegs [] s { advance k { s with mp := a } with mp := s.mp } :=
  onlyRegs_withMp (onlyRegs_advance k { s with mp := a }) s.mp

theorem advanced_setMp_advance {k : Nat} (hk : k ≤ 4096) (a : Addr) (s : State) :
    Advanced k s (advance k { s with mp := a }) :=
  advanced_advance_of_eq hk rfl rfl

/-- Zero extension keeps the number (R111). -/
theorem addrWord_eq_ofNat (a : Addr) : addrWord a = BitVec.ofNat 16 a.toNat := by
  rw [BitVec.ofNat_toNat, addrWord]

/-! ## The instructions -/

theorem exec_smp (nnn : Addr) (s : State) : exec (.smp nnn) s = .next (advance 2 { s with mp := nnn }) := rfl

theorem exec_rmp (x : Reg) (s : State) : exec (.rmp x) s = finish x (addrWord s.mp) s := rfl

theorem exec_mpar (x : Reg) (s : State) :
    exec (.mpar x) s = .next (advance 2 { s with mp := addrPlusWord s.mp (readReg x s) }) := rfl

/-- The `mp` that MPAR leaves: the sum is that of CPAC, with `mp` for the constant (R112). -/
theorem mp_setMp_addrPlusWord_advance (k : Nat) (v : Word) (s : State) :
    (advance k { s with mp := addrPlusWord s.mp v }).mp.toNat = (s.mp.toNat + v.toNat) % 4096 := by
  rw [advance_mp, addrPlusWord_toNat, Nat.add_comm]

end

/-! ## The obligation -/

/-- Settles O29. -/
theorem memoryPointerMoves : Obligations.MemoryPointerMoves := by
  refine ⟨fun nnn => ⟨decode_formatA_smp nnn, fun s => ?smp⟩,
    fun x => ⟨decode_formatI_rmp x, decode_formatI_mpar x, fun s => ⟨?rmp, ?mpar⟩⟩⟩
  case smp =>
    exact ⟨_, exec_smp nnn s, Machine.advance_mp 2 _, onlyRegs_setMp_advance 2 nnn s,
      advanced_setMp_advance (by decide) nnn s⟩
  case rmp => rw [exec_rmp, addrWord_eq_ofNat]; exact finish_writesOnly x _ s
  case mpar =>
    exact ⟨_, exec_mpar x s, mp_setMp_addrPlusWord_advance 2 _ s, onlyRegs_setMp_advance 2 _ s,
      advanced_setMp_advance (by decide) _ s⟩

end Sys2Proof.Proofs

/-! SUPPORT. The console's pointer (spec 46_standard_devices.md R144, R145): the format code taken from a
word and shown as one, as numbers; from them obligation O42. -/

namespace Sys2Proof.Proofs

section
open Sys2Proof.Machine

/-- Bit 0 of the value is its parity: the other 15 bits are ignored (R144). -/
theorem consoleSetPointer_fmt_toNat (c : Console) (v : Word) :
    (consoleSetPointer c v).state.fmt.toNat = v.toNat % 2 := by
  rw [consoleSetPointer, BitVec.extractLsb'_toNat, Nat.shiftRight_zero, Nat.pow_one]

/-- Zero extension keeps the number of the code (R145). -/
theorem consoleGetPointer_value_toNat (c : Console) : (consoleGetPointer c).value.toNat = c.fmt.toNat :=
  BitVec.toNat_setWidth_of_le (by decide)

end

/-- Settles O42. The two lemmas give the codes; that nothing else changes or fails is how the two replies are built. -/
theorem consolePointerIsFormatCode : Obligations.ConsolePointerIsFormatCode := fun c v =>
  ⟨⟨_, consoleSetPointer_fmt_toNat c v, rfl⟩, ⟨_, consoleGetPointer_value_toNat c, rfl⟩⟩

end Sys2Proof.Proofs

/-! SUPPORT. The illegal word (spec 60_exceptions.md R172): the step that fetches it, the frame of a change
of `alert`, and from these obligation O8. -/

namespace Sys2Proof.Proofs

section
open Sys2Proof.Machine

/-! ## The step (R70) -/

/-- A cycle that fetches a word the decoder reports, for any report. -/
theorem step_of_decode_error {s : State} {e : DecodeError} (hrun : s.status = .running) (hpc : s.pc ≠ 0xFFF)
    (he : decode (joinBytes (s.mem.read s.pc.toNat) (s.mem.read (s.pc.toNat + 1))) = .error e) :
    step s = execIllegal (joinBytes (s.mem.read s.pc.toNat) (s.mem.read (s.pc.toNat + 1))) s := by
  rcases fetch_cases s with ⟨hend, -⟩ | ⟨-, hfetch⟩
  · exact absurd hend hpc
  · simp only [step, instructionCycle, hrun, runCycle, hfetch, he]

/-! ## A change of the alert -/

/-- The frame says of `alert` only that both states hold the same one, so it stands for any common `alert`. -/
theorem onlyRegs_withAlert {ws : List Reg} {s t : State} (h : OnlyRegs ws s t) (a : Bool) :
    OnlyRegs ws { s with alert := a } { t with alert := a } :=
  { h with alert := rfl }

/-! ## The effect of an illegal word -/

theorem advance_raise_illegalOpcode_alert (w : Word) (s : State) :
    (advance 2 (raise (.illegalOpcode w) s)).alert = true := by
  rw [advance_alert, raise_illegalOpcode_alert]

/-- The alert is raised before the advance, which looks at `pc` and `status` alone. -/
theorem advanced_advance_raise_illegalOpcode (w : Word) (s : State) :
    Advanced 2 s (advance 2 (raise (.illegalOpcode w) s)) :=
  advanced_advance_of_eq (by decide) (raise_pc _ s) (raise_illegalOpcode_status w s)

/-- Past the alert, an illegal word changes what the advance changes. -/
theorem onlyRegs_advance_raise_illegalOpcode (w : Word) (s : State) :
    OnlyRegs [] s { advance 2 (raise (.illegalOpcode w) s) with alert := s.alert } :=
  onlyRegs_withAlert (onlyRegs_advance 2 (raise (.illegalOpcode w) s)) s.alert

theorem execIllegal_effect (w : Word) (s : State) :
    ∃ t, execIllegal w s = .next t ∧ t.alert = true ∧ Advanced 2 s t ∧ OnlyRegs [] s { t with alert := s.alert } :=
  ⟨_, rfl, advance_raise_illegalOpcode_alert w s, advanced_advance_raise_illegalOpcode w s,
    onlyRegs_advance_raise_illegalOpcode w s⟩

end

/-! ## The obligation -/

/-- Settles O8. A word that decodes to no instruction is one the decoder reports. -/
theorem illegalWordAlertsAndAdvances : Obligations.IllegalWordAlertsAndAdvances := by
  intro s hrun hpc hillegal
  cases hdecode : decode (joinBytes (s.mem.read s.pc.toNat) (s.mem.read (s.pc.toNat + 1))) with
  | ok i => exact absurd hdecode (hillegal i)
  | error e =>
    rw [step_of_decode_error hrun hpc hdecode]
    exact execIllegal_effect _ s

end Sys2Proof.Proofs

/-! SUPPORT. The encoder and the decoder are each other's inverse (spec 30_encoding.md R52 to R56): what the
remaining words decode to, a word rebuilt from its fields, the words the decoder reports, and from these
obligations O1, O2, O4 and O5. -/

namespace Sys2Proof.Proofs

/-! ## The words (R55) -/

theorem decode_formatA_call (nnn : Addr) : decode (formatA 0x2 nnn) = .ok (.call nnn) := by
  rw [decode_eq_call (congrArg BitVec.toNat (fieldP_formatA 0x2 nnn)), fieldNNN_formatA]

theorem decode_formatI_bar (x : Reg) (nn : Byte) : decode (formatI 0xC x nn) = .ok (.bar x nn) := by
  rw [decode_eq_bar (congrArg BitVec.toNat (fieldP_formatI 0xC x nn)), fieldX_formatI, fieldNN_formatI]

theorem decode_formatI_write (x : Slot) (nn : Byte) : decode (formatI 0xD x nn) = .ok (.write x nn.toNat) := by
  rw [decode_eq_write (congrArg BitVec.toNat (fieldP_formatI 0xD x nn)), fieldX_formatI, fieldNN_formatI]

theorem decode_formatI_read (x : Slot) (nn : Byte) : decode (formatI 0xF x nn) = .ok (.read x nn.toNat) := by
  rw [decode_eq_read (congrArg BitVec.toNat (fieldP_formatI 0xF x nn)), fieldX_formatI, fieldNN_formatI]

theorem decode_formatI_dps (x : Slot) : decode (formatI 0xE x 0x00) = .ok (.dps x) :=
  decode_formatI_groupE .dps (fun w hRR => by rw [decodeGroupE, hRR]; rfl) x

theorem decode_formatI_dpg (x : Slot) : decode (formatI 0xE x 0x01) = .ok (.dpg x) :=
  decode_formatI_groupE .dpg (fun w hRR => by rw [decodeGroupE, hRR]; rfl) x

theorem decode_formatI_callr (x : Reg) : decode (formatI 0xE x 0x1C) = .ok (.callr x) :=
  decode_formatI_groupE .callr (fun w hRR => by rw [decodeGroupE, hRR]; rfl) x

theorem decode_formatI_spl (x : Reg) : decode (formatI 0xE x 0x55) = .ok (.spl x) :=
  decode_formatI_groupE .spl (fun w hRR => by rw [decodeGroupE, hRR]; rfl) x

theorem decode_formatI_ld (x : Reg) : decode (formatI 0xE x 0x65) = .ok (.ld x) :=
  decode_formatI_groupE .ld (fun w hRR => by rw [decodeGroupE, hRR]; rfl) x

/-! ## The two counts

A count that fits its field is the number of the field's bits, so its word is one of those above. -/

theorem decode_formatI_write_count (x : Slot) {count : Nat} (h : count < 256) :
    decode (formatI 0xD x (BitVec.ofNat 8 count)) = .ok (.write x count) := by
  rw [decode_formatI_write, BitVec.toNat_ofNat, Nat.mod_eq_of_lt h]

theorem decode_formatI_read_count (x : Slot) {count : Nat} (h : count < 256) :
    decode (formatI 0xF x (BitVec.ofNat 8 count)) = .ok (.read x count) := by
  rw [decode_formatI_read, BitVec.toNat_ofNat, Nat.mod_eq_of_lt h]

theorem formatShift_eq_formatR (p : BitVec 4) (x : Fin 16) {count : Nat} (h : count < 16) (q : BitVec 4) :
    formatShift p x count q = formatR p x ⟨count, h⟩ q := by
  have hy : BitVec.ofNat 4 count = nibble ⟨count, h⟩ :=
    BitVec.eq_of_toNat_eq ((BitVec.toNat_ofNat count 4).trans (Nat.mod_eq_of_lt h))
  rw [formatShift, hy, formatR]

theorem decode_formatShift_shr (x : Reg) {count : Nat} (h : count < 16) :
    decode (formatShift 0x8 x count 0x6) = .ok (.shr x count) := by
  rw [formatShift_eq_formatR 0x8 x h 0x6, decode_formatR_shr]

theorem decode_formatShift_shl (x : Reg) {count : Nat} (h : count < 16) :
    decode (formatShift 0x8 x count 0xE) = .ok (.shl x count) := by
  rw [formatShift_eq_formatR 0x8 x h 0xE, decode_formatR_shl]

/-! ## A word rebuilt from its fields -/

section
variable {w : Word} {p q : BitVec 4}

theorem formatA_fields (hP : (fieldP w).toNat = p.toNat) : formatA p (fieldNNN w) = w := by
  apply BitVec.eq_of_toNat_eq
  rw [formatA_toNat, ← hP, fieldP_toNat, fieldNNN_toNat]
  omega

theorem formatI_fields (hP : (fieldP w).toNat = p.toNat) : formatI p (fieldX w) (fieldNN w) = w := by
  apply BitVec.eq_of_toNat_eq
  rw [formatI_toNat, ← hP, fieldP_toNat, fieldX_val, fieldNN_toNat]
  omega

/-- The same where the low byte is the fixed RR of a row of group E. -/
theorem formatI_fieldX {rr : Byte} (hP : (fieldP w).toNat = p.toNat) (hRR : (fieldNN w).toNat = rr.toNat) :
    formatI p (fieldX w) rr = w := by
  rw [← BitVec.eq_of_toNat_eq hRR, formatI_fields hP]

theorem formatR_fields (hP : (fieldP w).toNat = p.toNat) (hQ : (fieldQ w).toNat = q.toNat) :
    formatR p (fieldX w) (fieldY w) q = w := by
  have hlow : (nibble (fieldY w) ++ q : BitVec 8).toNat = w.toNat % 256 := by
    rw [lowByte_toNat, ← hQ, fieldQ_toNat, show (nibble (fieldY w)).toNat = _ from fieldY_val w]
    omega
  apply BitVec.eq_of_toNat_eq
  rw [formatR_eq, formatI_toNat, hlow, ← hP, fieldP_toNat, fieldX_val]
  omega

theorem formatShift_fields (hP : (fieldP w).toNat = p.toNat) (hQ : (fieldQ w).toNat = q.toNat) :
    formatShift p (fieldX w) (fieldY w).val q = w := by
  rw [formatShift_eq_formatR p _ (fieldY w).isLt q, formatR_fields hP hQ]

/-- A byte count taken from the field NN goes back into it. -/
theorem formatI_count_fields (hP : (fieldP w).toNat = p.toNat) :
    formatI p (fieldX w) (BitVec.ofNat 8 (fieldNN w).toNat) = w := by
  rw [BitVec.ofNat_toNat, BitVec.setWidth_eq, formatI_fields hP]

end

/-! ## What a decoded word came from -/

theorem encode_of_decodeGroup8 {w : Word} {i : Instr} (hP : (fieldP w).toNat = 0x8) (h : decodeGroup8 w = .ok i) :
    encode i = w ∧ i.wellFormed = true := by
  unfold decodeGroup8 at h
  split at h <;> cases h
  case h_7 hQ | h_9 hQ => exact ⟨formatShift_fields hP hQ, decide_eq_true (fieldY w).isLt⟩
  all_goals exact ⟨formatR_fields hP ‹_›, rfl⟩

theorem encode_of_decodeGroupE {w : Word} {i : Instr} (hP : (fieldP w).toNat = 0xE) (h : decodeGroupE w = .ok i) :
    encode i = w ∧ i.wellFormed = true := by
  unfold decodeGroupE at h
  split at h <;> cases h
  all_goals exact ⟨formatI_fieldX hP ‹_›, rfl⟩

/-- By the branches of the decoder, each of which fixes P and hands the fields of its format on. -/
theorem encode_of_decode {w : Word} {i : Instr} (h : decode w = .ok i) : encode i = w ∧ i.wellFormed = true := by
  unfold decode at h
  split at h
  case h_1 =>
    split at h
    · cases h; exact ⟨Eq.symm ‹_›, rfl⟩
    · split at h <;> cases h
      exact ⟨Eq.symm ‹_›, rfl⟩
  case h_2 hP | h_3 hP | h_11 hP | h_12 hP => cases h; exact ⟨formatA_fields hP, rfl⟩
  case h_6 hP | h_10 hP =>
    split at h <;> cases h
    exact ⟨formatR_fields hP (congrArg BitVec.toNat ‹fieldQ w = 0#4›), rfl⟩
  case h_9 hP => exact encode_of_decodeGroup8 hP h
  case h_14 hP | h_16 hP => cases h; exact ⟨formatI_count_fields hP, decide_eq_true (fieldNN w).isLt⟩
  case h_15 hP => exact encode_of_decodeGroupE hP h
  case h_17 => cases h
  all_goals cases h; exact ⟨formatI_fields ‹_›, rfl⟩

/-! ## The words the decoder reports (R56) -/

/-- The decoder reports a word by itself and for no other reason. -/
theorem eq_illegalWord_of_decode_error {w : Word} {e : DecodeError} (h : decode w = .error e) : e = .illegalWord w := by
  unfold decode decodeGroup8 decodeGroupE at h
  repeat' split at h
  all_goals cases h
  all_goals rfl

theorem decodeGroup8_error_iff (w : Word) : decodeGroup8 w = .error (.illegalWord w) ↔
    w.toNat % 16 ∈ [0x8, 0x9, 0xA, 0xB, 0xC, 0xD, 0xF] := by
  have hlt := (fieldQ w).isLt
  rw [← fieldQ_toNat, decodeGroup8]
  split
  case h_10 => generalize (fieldQ w).toNat = q at *; interval_cases q <;> simp_all
  all_goals simp [‹(fieldQ w).toNat = _›]

theorem decodeGroupE_error_iff (w : Word) : decodeGroupE w = .error (.illegalWord w) ↔
    w.toNat % 256 ∉ [0x00, 0x01, 0x1C, 0x1D, 0x1E, 0x55, 0x65] := by
  rw [← fieldNN_toNat, decodeGroupE]
  split
  case h_8 => simp only [imp_false] at *; simp [*]
  all_goals simp [‹(fieldNN w).toNat = _›]

theorem fieldQ_eq_zero_iff (w : Word) : fieldQ w = 0#4 ↔ w.toNat % 16 = 0 := by
  rw [← BitVec.toNat_inj, fieldQ_toNat]; rfl

/-! ## The obligations -/

/-- Settles O1. The two counts are the operands that `wellFormed` bounds. -/
theorem decodeOfEncode : Obligations.DecodeOfEncode := by
  intro i hwf
  cases i with
  | halt | ret => rfl
  | goto nnn => exact decode_formatA_goto nnn
  | call nnn => exact decode_formatA_call nnn
  | snec x nn => exact decode_formatI_snec x nn
  | snuec x nn => exact decode_formatI_snuec x nn
  | sne x y => exact decode_formatR_sne x y
  | acr x nn => exact decode_formatI_acr x nn
  | adc x nn => exact decode_formatI_adc x nn
  | ar x y => exact decode_formatR_ar x y
  | or x y => exact decode_formatR_or x y
  | and x y => exact decode_formatR_and x y
  | xor x y => exact decode_formatR_xor x y
  | add x y => exact decode_formatR_add x y
  | sub x y => exact decode_formatR_sub x y
  | shr x count => exact decode_formatShift_shr x (of_decide_eq_true hwf)
  | rsub x y => exact decode_formatR_rsub x y
  | shl x count => exact decode_formatShift_shl x (of_decide_eq_true hwf)
  | snue x y => exact decode_formatR_snue x y
  | smp nnn => exact decode_formatA_smp nnn
  | cpac nnn => exact decode_formatA_cpac nnn
  | bar x nn => exact decode_formatI_bar x nn
  | write x count => exact decode_formatI_write_count x (of_decide_eq_true hwf)
  | dps x => exact decode_formatI_dps x
  | dpg x => exact decode_formatI_dpg x
  | callr x => exact decode_formatI_callr x
  | rmp x => exact decode_formatI_rmp x
  | mpar x => exact decode_formatI_mpar x
  | spl x => exact decode_formatI_spl x
  | ld x => exact decode_formatI_ld x
  | read x count => exact decode_formatI_read_count x (of_decide_eq_true hwf)

/-- Settles O2. -/
theorem encodeOfDecode : Obligations.EncodeOfDecode := fun _ _ => encode_of_decode

/-- Settles O4. By the branches of the decoder: outside the five groups of the table it answers an
instruction, and inside one it asks what the table asks. -/
theorem illegalWordsAreTheFiveGroups : Obligations.IllegalWordsAreTheFiveGroups := by
  intro w
  have hlt := (fieldP w).isLt
  rw [← fieldP_toNat, decode]
  split
  case h_1 h =>
    rw [h]
    split
    · simp [*]
    · split <;> simp [*]
  case h_6 h | h_10 h =>
    rw [h]
    split <;> simp_all [fieldQ_eq_zero_iff]
  case h_9 h => rw [h, decodeGroup8_error_iff]; simp
  case h_15 h => rw [h, decodeGroupE_error_iff]; simp
  case h_17 => grind
  all_goals simp [‹(fieldP w).toNat = _›]

/-- Settles O5. -/
theorem sampleWordsDecode : Obligations.SampleWordsDecode := by
  refine ⟨?_, ?_, ?_, ?_, ?_, ?_, ?_, ?_, ?_, ?_, ?_⟩ <;> decide

end Sys2Proof.Proofs

/-! SUPPORT. The instruction cycle and the transfers of control through the stack (spec
40_cycle_and_control.md R70, R72, R74, R75, R77, R79, R80; 60_exceptions.md R173, R174): the fetched word as a
number, the step by its cases, calls and returns, and from these obligations O6, O7, O9, O12, O13, O15, O17
and O18. -/

namespace Sys2Proof.Proofs

section
open Sys2Proof.Machine

/-! ## The step (R70) -/

theorem joinBytes_toNat (hi lo : Byte) : (joinBytes hi lo).toNat = hi.toNat * 256 + lo.toNat := append_toNat hi lo

theorem step_of_not_running {s : State} (h : s.status ≠ .running) : step s = .next s := by
  cases hs : s.status with
  | running => exact absurd hs h
  | halted | outOfBounds => rw [step, instructionCycle, hs]

theorem step_of_pc_top {s : State} (hrun : s.status = .running) (hpc : s.pc = 0xFFF) :
    step s = .next (raise .pcOutOfBounds s) := by
  rcases fetch_cases s with ⟨-, hfetch⟩ | ⟨hne, -⟩
  · simp only [step, instructionCycle, hrun, runCycle, hfetch]
  · exact absurd hpc hne

/-- A cycle that fetches a legal word. -/
theorem step_of_decode_ok {s : State} {i : Instr} (hrun : s.status = .running) (hpc : s.pc ≠ 0xFFF)
    (hi : decode (joinBytes (s.mem.read s.pc.toNat) (s.mem.read (s.pc.toNat + 1))) = .ok i) : step s = exec i s := by
  rcases fetch_cases s with ⟨hend, -⟩ | ⟨-, hfetch⟩
  · exact absurd hend hpc
  · simp only [step, instructionCycle, hrun, runCycle, hfetch, hi]

/-! ## Calls and returns -/

/-- The 13 bits of `returnAddress` hold the sum whole, so the only reduction is the one modulo 4096. -/
theorem returnAddress_toNat (pc : Addr) : (returnAddress pc).toNat = (pc.toNat + 2) % 4096 := by
  have hsum : (pc.setWidth 13 + 2 : BitVec 13).toNat = pc.toNat + 2 := by
    have := pc.isLt
    rw [BitVec.toNat_add, BitVec.toNat_setWidth_of_le (by decide)]
    simp
    omega
  rw [returnAddress, BitVec.extractLsb'_toNat, hsum, Nat.shiftRight_zero]

theorem lowAddr_toNat (v : Word) : (lowAddr v).toNat = v.toNat % 4096 := by
  rw [lowAddr, BitVec.extractLsb'_toNat, Nat.shiftRight_zero]

theorem exec_halt (s : State) : exec .halt s = .next { s with status := .halted } := rfl

theorem exec_ret (s : State) : exec .ret s = execRet s := rfl

theorem exec_call (nnn : Addr) (s : State) : exec (.call nnn) s = callTo nnn s := rfl

theorem exec_callr (x : Reg) (s : State) : exec (.callr x) s = callTo (lowAddr (readReg x s)) s := rfl

theorem callTo_of_room {s : State} (a : Addr) (h : s.stack.length < 16) :
    callTo a s = .next { s with pc := a, stack := s.stack ++ [returnAddress s.pc] } := by
  rcases callTo_cases a s with ⟨hfull, -⟩ | ⟨-, hcall⟩
  · omega
  · exact hcall

theorem callTo_of_full {s : State} (a : Addr) (h : s.stack.length = 16) :
    callTo a s = .next { s with alert := true, status := .halted } := by
  rcases callTo_cases a s with ⟨-, hover⟩ | ⟨hne, -⟩
  · exact hover
  · exact absurd h hne

theorem execRet_of_empty {s : State} (h : s.stack = []) :
    execRet s = .next { s with alert := true, status := .halted } := by
  rcases execRet_cases s with ⟨-, hunder⟩ | ⟨st, v, hst, -⟩
  · exact hunder
  · rw [h] at hst
    exact absurd hst.symm (List.concat_ne_nil _ _)

theorem execRet_of_top {s : State} {st : List Addr} {v : Addr} (h : s.stack = st ++ [v]) :
    execRet s = .next { s with pc := v, stack := st } := by
  rcases execRet_cases s with ⟨hnil, -⟩ | ⟨st', v', hst, hret⟩
  · rw [h] at hnil
    exact absurd hnil (List.concat_ne_nil _ _)
  · obtain ⟨rfl, hv⟩ := List.append_inj' (h.symm.trans hst) rfl
    cases hv
    exact hret

/-- CALL and CALLR alike: both are `callTo` with a target of their own. -/
theorem exec_of_isCall {i : Instr} (hi : (∃ nnn, i = .call nnn) ∨ ∃ x, i = .callr x) (s : State) :
    ∃ a, exec i s = callTo a s := by
  rcases hi with ⟨nnn, rfl⟩ | ⟨x, rfl⟩
  · exact ⟨_, exec_call nnn s⟩
  · exact ⟨_, exec_callr x s⟩

end

/-! ## The obligations -/

/-- Settles O6. -/
theorem stepRunsDecodedInstruction : Obligations.StepRunsDecodedInstruction := fun _ _ => step_of_decode_ok

/-- Settles O7. -/
theorem stepFollowsInstructionCycle : Obligations.StepFollowsInstructionCycle := by
  refine fun s => ⟨step_of_not_running, step_of_pc_top, fun hrun hpc => ⟨_, joinBytes_toNat _ _, ?_⟩⟩
  cases hdecode : decode (joinBytes (s.mem.read s.pc.toNat) (s.mem.read (s.pc.toNat + 1))) with
  | ok i => exact .inl ⟨i, rfl, step_of_decode_ok hrun hpc hdecode⟩
  | error e =>
    rw [← eq_illegalWord_of_decode_error hdecode]
    exact .inr ⟨rfl, step_of_decode_error hrun hpc hdecode⟩

/-- Settles O9. -/
theorem advanceFollowsRule : Obligations.AdvanceFollowsRule := by
  intro k s hk
  have hle : k ≤ 4096 := by omega
  exact ⟨advanced_advance hle s, Machine.advance_pc_toNat k s, onlyRegs_advance k s⟩

/-- Settles O12. -/
theorem haltStops : Obligations.HaltStops := ⟨rfl, exec_halt⟩

/-- Settles O13. A stack that is not empty has a top, and then RET takes it. -/
theorem retPopsOrUnderflows : Obligations.RetPopsOrUnderflows := by
  refine ⟨rfl, fun s st v => execRet_of_top, fun s hne => ?completes, fun s => execRet_of_empty⟩
  obtain ⟨st, v, hst⟩ := (List.eq_nil_or_concat' s.stack).resolve_left hne
  exact ⟨_, execRet_of_top hst, hst, rfl, {
    regs := fun _ _ => rfl
    mp := rfl
    alert := rfl
    stack := rfl
    mem := fun _ => rfl
    dev := fun _ => rfl
    draws := rfl }⟩

/-- Settles O15. -/
theorem callPushesAndJumps : Obligations.CallPushesAndJumps := fun nnn =>
  ⟨decode_formatA_call nnn, fun s hroom => ⟨_, returnAddress_toNat s.pc, callTo_of_room nnn hroom⟩,
    fun _ hfull => callTo_of_full nnn hfull⟩

/-- Settles O17. -/
theorem callrPushesAndJumps : Obligations.CallrPushesAndJumps := fun x =>
  ⟨decode_formatI_callr x,
    fun s hroom => ⟨_, _, lowAddr_toNat _, returnAddress_toNat s.pc, callTo_of_room _ hroom⟩,
    fun _ hfull => callTo_of_full _ hfull⟩

/-- Settles O18. The return finds the address that the call pushed on top of the caller's stack. -/
theorem callThenRetReturns : Obligations.CallThenRetReturns := by
  intro i s t u hi hroom hexec hstack
  obtain ⟨a, hcall⟩ := exec_of_isCall hi s
  rw [hcall, callTo_of_room a hroom] at hexec
  cases hexec
  exact ⟨_, returnAddress_toNat s.pc, execRet_of_top hstack⟩

end Sys2Proof.Proofs

/-! SUPPORT. What an instruction and a step can do (spec 10_state.md R15 to R20, R25; 45_device_bus.md R132,
R138; 60_exceptions.md R171; 70_reset_and_hazards.md R200): one relation that lists the ways an instruction can
end with what each leaves unchanged, one induction over the cycles of a run, and from them obligations O10,
O11, O46 and O52 to O58. -/

namespace Sys2Proof.Proofs

section
open Sys2Proof.Machine

/-! ## What a device operation keeps -/

/-- A device after one of its operations: bound as before, a rom's contents untouched, well formed if it was. -/
structure KeepsDevice (d d' : Device) : Prop where
  kind : d'.kind = d.kind
  fixedPart : d'.fixedPart = d.fixedPart
  wf : d.wf = true → d'.wf = true

theorem KeepsDevice.trans {d d' d'' : Device} (h : KeepsDevice d d') (h' : KeepsDevice d' d'') :
    KeepsDevice d d'' where
  kind := h'.kind.trans h.kind
  fixedPart := h'.fixedPart.trans h.fixedPart
  wf hwf := h'.wf (h.wf hwf)

theorem keepsDevice_write (d : Device) (bs : List Byte) : KeepsDevice d (deviceWrite d bs).state :=
  ⟨(deviceWrite_fixed d bs).1, (deviceWrite_fixed d bs).2, deviceWrite_wf d bs⟩

theorem keepsDevice_read (d : Device) (n : Nat) : KeepsDevice d (deviceRead d n).state :=
  ⟨(deviceRead_fixed d n).1, (deviceRead_fixed d n).2, deviceRead_wf d n⟩

theorem keepsDevice_setPointer (d : Device) (v : Word) : KeepsDevice d (deviceSetPointer d v).state :=
  ⟨(deviceSetPointer_fixed d v).1, (deviceSetPointer_fixed d v).2, deviceSetPointer_wf d v⟩

theorem keepsDevice_getPointer (d : Device) : KeepsDevice d (deviceGetPointer d).state :=
  ⟨(deviceGetPointer_fixed d).1, (deviceGetPointer_fixed d).2, deviceGetPointer_wf d⟩

/-! ## What an instruction may change before its sequential advance -/

/-- The instruction is a device instruction on the slot. -/
def ActsOnSlot (i : Instr) (k : Slot) : Prop :=
  (∃ n, i = .write k n) ∨ (∃ n, i = .read k n) ∨ i = .dps k ∨ i = .dpg k

/-- The instruction is CALL or CALLR. -/
def IsCall (i : Instr) : Prop := (∃ a, i = .call a) ∨ ∃ x, i = .callr x

/-- The device of the slot went through an operation, in an instruction on that slot. -/
def DeviceOperated (i : Instr) (k : Slot) (s u : State) : Prop :=
  ∃ d d', ActsOnSlot i k ∧ readSlot k s = some d ∧ readSlot k u = some d' ∧ KeepsDevice d d'

/-- The frame of an instruction that ends with an advance, up to that advance: what it may change at all, and
which instructions may. -/
structure BodyFrame (i : Instr) (s u : State) : Prop where
  regs : sameRegsBut (regsWritten i) s u
  pc : u.pc = s.pc
  status : u.status = s.status
  stack : u.stack = s.stack
  mp : (∀ a, i ≠ .smp a) → (∀ x, i ≠ .mpar x) → u.mp = s.mp
  mem : (∀ x, i ≠ .spl x) → (∀ x n, i ≠ .read x n) → u.mem = s.mem
  memWf : s.mem.wf Config.memSize = true → u.mem.wf Config.memSize = true
  alert : s.alert = true → u.alert = true
  dev : ∀ k, readSlot k u = readSlot k s ∨ DeviceOperated i k s u

section
variable {i : Instr} {s : State}

theorem bodyFrame_refl (i : Instr) (s : State) : BodyFrame i s s where
  regs _ _ := rfl
  pc := rfl
  status := rfl
  stack := rfl
  mp _ _ := rfl
  mem _ _ := rfl
  memWf := id
  alert := id
  dev _ := .inl rfl

theorem BodyFrame.trans {u v : State} (h : BodyFrame i s u) (h' : BodyFrame i u v) : BodyFrame i s v where
  regs r hr := (h'.regs r hr).trans (h.regs r hr)
  pc := h'.pc.trans h.pc
  status := h'.status.trans h.status
  stack := h'.stack.trans h.stack
  mp hsmp hmpar := (h'.mp hsmp hmpar).trans (h.mp hsmp hmpar)
  mem hspl hread := (h'.mem hspl hread).trans (h.mem hspl hread)
  memWf hwf := h'.memWf (h.memWf hwf)
  alert ha := h'.alert (h.alert ha)
  dev k := by
    rcases h.dev k with hk | ⟨d, d', hi, hd, hd', hkeep⟩ <;>
      rcases h'.dev k with hk' | ⟨e, e', hi', he, he', hkeep'⟩
    · exact .inl (hk'.trans hk)
    · exact .inr ⟨e, e', hi', hk.symm.trans he, he', hkeep'⟩
    · exact .inr ⟨d, d', hi, hd, hk'.trans hd', hkeep⟩
    · cases hd'.symm.trans he
      exact .inr ⟨d, e', hi, hd, he', hkeep.trans hkeep'⟩

theorem bodyFrame_writeReg {x : Reg} (hx : x ∈ regsWritten i) (v : Word) : BodyFrame i s (writeReg x v s) :=
  { bodyFrame_refl i s with
    regs := fun r hr => by rw [readReg_writeReg, if_neg (fun h : r = x => hr (h ▸ hx))] }

theorem bodyFrame_writeResultThenFlag {x : Reg} (hx : x ∈ regsWritten i) (hf : flagReg ∈ regsWritten i)
    (v : Word) (f : Bool) : BodyFrame i s (writeResultThenFlag x v f s) :=
  (bodyFrame_writeReg hx v).trans (bodyFrame_writeReg hf (flagWord f))

theorem bodyFrame_setRegs {rs : Vector Word 16}
    (h : ∀ r, r ∉ regsWritten i → readReg r { s with regs := rs } = readReg r s) :
    BodyFrame i s { s with regs := rs } :=
  { bodyFrame_refl i s with regs := h }

theorem bodyFrame_setMp (hi : (∃ a, i = .smp a) ∨ ∃ x, i = .mpar x) (a : Addr) : BodyFrame i s { s with mp := a } :=
  { bodyFrame_refl i s with
    mp := fun hsmp hmpar => by
      rcases hi with ⟨a, rfl⟩ | ⟨x, rfl⟩
      · exact absurd rfl (hsmp a)
      · exact absurd rfl (hmpar x) }

theorem bodyFrame_setMem (hi : (∃ x, i = .spl x) ∨ ∃ x n, i = .read x n) {m : Memory}
    (hm : s.mem.wf Config.memSize = true → m.wf Config.memSize = true) : BodyFrame i s { s with mem := m } :=
  { bodyFrame_refl i s with
    mem := fun hspl hread => by
      rcases hi with ⟨x, rfl⟩ | ⟨x, n, rfl⟩
      · exact absurd rfl (hspl x)
      · exact absurd rfl (hread x n)
    memWf := hm }

/-- An exception that does not stop the machine only alerts. -/
theorem bodyFrame_setAlert (i : Instr) (s : State) : BodyFrame i s { s with alert := true } :=
  { bodyFrame_refl i s with alert := fun _ => rfl }

theorem bodyFrame_checkRange (i : Instr) (n : Nat) (s : State) : BodyFrame i s (checkRange n s) := by
  unfold checkRange
  split
  · exact bodyFrame_setAlert i s
  · exact bodyFrame_refl i s

theorem bodyFrame_putDevice {k : Slot} {d d' : Device} (hi : ActsOnSlot i k) (hd : readSlot k s = some d)
    (hkeep : KeepsDevice d d') : BodyFrame i s (putDevice k d' s) :=
  { bodyFrame_refl i s with
    dev := fun j => by
      have hj := readSlot_putDevice j k d' s
      by_cases hjk : j = k
      · subst j
        exact .inr ⟨d, d', hi, hd, hj.trans (if_pos rfl), hkeep⟩
      · exact .inl (hj.trans (if_neg hjk)) }

theorem bodyFrame_settle {α : Type} {k : Slot} {d : Device} {q : Reply Device α} (hi : ActsOnSlot i k)
    (hd : readSlot k s = some d) (hkeep : KeepsDevice d q.state) : BodyFrame i s (settle k q s) := by
  have hput := bodyFrame_putDevice hi hd hkeep
  unfold settle
  split
  · exact hput.trans (bodyFrame_setAlert i _)
  · exact hput

theorem bodyFrame_busWrite {k : Slot} (hi : ActsOnSlot i k) (bs : List Byte) : BodyFrame i s (busWrite k bs s) := by
  rcases busWrite_cases k bs s with ⟨-, h⟩ | ⟨d, hd, h⟩ <;> rw [h]
  · exact bodyFrame_setAlert i s
  · exact bodyFrame_settle hi hd (keepsDevice_write d bs)

theorem bodyFrame_busSetPointer {k : Slot} (hi : ActsOnSlot i k) (v : Word) :
    BodyFrame i s (busSetPointer k v s) := by
  rcases busSetPointer_cases k v s with ⟨-, h⟩ | ⟨d, hd, h⟩ <;> rw [h]
  · exact bodyFrame_setAlert i s
  · exact bodyFrame_settle hi hd (keepsDevice_setPointer d v)

end

/-! ## How an instruction can end -/

/-- All that an instruction can do: stop, transfer control, or change what its frame allows and advance. -/
inductive Effect (s : State) : Instr → State → Prop
  | halt : Effect s .halt { s with status := .halted }
  | underflow : s.stack = [] → Effect s .ret { s with alert := true, status := .halted }
  | ret {st : List Addr} {v : Addr} : s.stack = st ++ [v] → Effect s .ret { s with pc := v, stack := st }
  | overflow {i : Instr} : IsCall i → s.stack.length = 16 → Effect s i { s with alert := true, status := .halted }
  | call {i : Instr} (a ra : Addr) : IsCall i → s.stack.length ≠ 16 →
      Effect s i { s with pc := a, stack := s.stack ++ [ra] }
  | jump {i : Instr} (a : Addr) : Effect s i { s with pc := a }
  | advance {i : Instr} {k : Nat} {u : State} : k = 2 ∨ k = 4 → BodyFrame i s u → Effect s i (advance k u)

section
variable {i : Instr} {s : State}

theorem effect_finish {x : Reg} (hx : x ∈ regsWritten i) (v : Word) :
    ∃ t, finish x v s = .next t ∧ Effect s i t :=
  ⟨_, rfl, .advance (.inl rfl) (bodyFrame_writeReg hx v)⟩

theorem effect_finishWithFlag {x : Reg} (hx : x ∈ regsWritten i) (hf : flagReg ∈ regsWritten i) (v : Word)
    (f : Bool) : ∃ t, finishWithFlag x v f s = .next t ∧ Effect s i t :=
  ⟨_, rfl, .advance (.inl rfl) (bodyFrame_writeResultThenFlag hx hf v f)⟩

theorem effect_skipWhen (i : Instr) (c : Bool) (s : State) : Effect s i (skipWhen c s) := by
  rw [skipWhen_eq_advance]
  cases c with
  | false => exact .advance (.inl rfl) (bodyFrame_refl i s)
  | true => exact .advance (.inr rfl) (bodyFrame_refl i s)

theorem effect_callTo (hi : IsCall i) (a : Addr) : ∃ t, callTo a s = .next t ∧ Effect s i t := by
  rcases callTo_cases a s with ⟨hfull, h⟩ | ⟨hroom, h⟩
  · exact ⟨_, h, .overflow hi hfull⟩
  · exact ⟨_, h, .call a _ hi hroom⟩

theorem effect_execRet (s : State) : ∃ t, execRet s = .next t ∧ Effect s .ret t := by
  rcases execRet_cases s with ⟨hnil, h⟩ | ⟨st, v, hst, h⟩
  · exact ⟨_, h, .underflow hnil⟩
  · exact ⟨_, h, .ret hst⟩

theorem effect_execBar (x : Reg) (nn : Byte) (s : State) :
    ∃ t, execBar x nn s = .next t ∧ Effect s (.bar x nn) t :=
  have hdraws : BodyFrame (.bar x nn) s { s with draws := s.draws + 1 } := { bodyFrame_refl _ s with }
  ⟨_, rfl, .advance (.inl rfl) (hdraws.trans (bodyFrame_writeReg (List.mem_singleton_self x) _))⟩

theorem effect_execSpl (x : Reg) (s : State) : ∃ t, execSpl x s = .next t ∧ Effect s (.spl x) t := by
  obtain ⟨m, h, hm⟩ := execSpl_eq x s
  have hwf : (checkRange 2 s).mem.wf Config.memSize = true → m.wf Config.memSize = true := by
    rw [checkRange_mem]; exact hm.wf
  exact ⟨_, h, .advance (.inl rfl)
    ((bodyFrame_checkRange _ 2 s).trans (bodyFrame_setMem (.inl ⟨x, rfl⟩) hwf))⟩

theorem effect_execLd (x : Reg) (s : State) : ∃ t, execLd x s = .next t ∧ Effect s (.ld x) t := by
  obtain ⟨rs, h, -, hout⟩ := execLd_eq x s
  have hregs : ∀ r, r ∉ regsWritten (.ld x) →
      readReg r { checkRange (2 * (x.val + 1)) s with regs := rs } = readReg r (checkRange (2 * (x.val + 1)) s) :=
    fun r hr => (hout r (.inl (mt (mem_registersUpTo r x).2 hr))).trans (readReg_checkRange r _ s).symm
  exact ⟨_, h, .advance (.inl rfl) ((bodyFrame_checkRange _ _ s).trans (bodyFrame_setRegs hregs))⟩

theorem effect_execWrite (x : Slot) (n : Nat) (s : State) :
    ∃ t, execWrite x n s = .next t ∧ Effect s (.write x n) t :=
  ⟨_, execWrite_eq x n s, .advance (.inl rfl)
    ((bodyFrame_checkRange _ n s).trans (bodyFrame_busWrite (.inl ⟨n, rfl⟩) _))⟩

theorem effect_execRead (x : Slot) (n : Nat) (s : State) :
    ∃ t, execRead x n s = .next t ∧ Effect s (.read x n) t := by
  have hrange := bodyFrame_checkRange (.read x n) n s
  rcases execRead_cases x n s with ⟨-, h⟩ | ⟨d, m, hd, h, hm⟩
  · exact ⟨_, h, .advance (.inl rfl) (hrange.trans (bodyFrame_setAlert _ _))⟩
  · rw [← readSlot_checkRange x n s] at hd
    have hsettle := bodyFrame_settle (.inr (.inl ⟨n, rfl⟩)) hd (keepsDevice_read d (window s.mp n))
    have hwf : (settle x (deviceRead d (window s.mp n)) (checkRange n s)).mem.wf Config.memSize = true →
        m.wf Config.memSize = true := by
      rw [settle_mem, checkRange_mem]; exact hm.wf
    exact ⟨_, h, .advance (.inl rfl) ((hrange.trans hsettle).trans (bodyFrame_setMem (.inr ⟨x, n, rfl⟩) hwf))⟩

theorem effect_execDpg (x : Slot) (s : State) : ∃ t, execDpg x s = .next t ∧ Effect s (.dpg x) t := by
  rcases execDpg_cases x s with ⟨-, h⟩ | ⟨d, hd, h⟩
  · exact ⟨_, h, .advance (.inl rfl) (bodyFrame_setAlert _ s)⟩
  · have hsettle := bodyFrame_settle (.inr (.inr (.inr rfl))) hd (keepsDevice_getPointer d)
    exact ⟨_, h, .advance (.inl rfl) (hsettle.trans (bodyFrame_writeReg (List.mem_singleton_self flagReg) _))⟩

/-- Every instruction answers a next state, in one of the ways listed. -/
theorem exec_effect (i : Instr) (s : State) : ∃ t, exec i s = .next t ∧ Effect s i t := by
  have hadvance : ∀ {i u}, BodyFrame i s u → Effect s i (advance 2 u) := fun h => .advance (.inl rfl) h
  have hfirst : ∀ {x : Reg} {l : List Reg}, x ∈ x :: l := List.mem_cons_self
  have hflag : ∀ {x : Reg}, flagReg ∈ [x, flagReg] := List.mem_cons_of_mem _ hfirst
  cases i with
  | halt => exact ⟨_, rfl, .halt⟩
  | ret => exact effect_execRet s
  | goto nnn => exact ⟨_, exec_goto nnn s, .jump nnn⟩
  | call nnn => exact effect_callTo (.inl ⟨nnn, rfl⟩) nnn
  | snec x nn => exact ⟨_, exec_snec x nn s, effect_skipWhen _ _ s⟩
  | snuec x nn => exact ⟨_, exec_snuec x nn s, effect_skipWhen _ _ s⟩
  | sne x y => exact ⟨_, exec_sne x y s, effect_skipWhen _ _ s⟩
  | snue x y => exact ⟨_, exec_snue x y s, effect_skipWhen _ _ s⟩
  | acr | adc | ar | or | and | xor | rmp => exact effect_finish hfirst _
  | add | sub | shr | rsub | shl =>
    refine effect_finishWithFlag ?_ ?_ _ _
    exacts [hfirst, hflag]
  | smp nnn => exact ⟨_, exec_smp nnn s, hadvance (bodyFrame_setMp (.inl ⟨nnn, rfl⟩) nnn)⟩
  | cpac nnn => exact ⟨_, exec_cpac nnn s, .jump _⟩
  | bar x nn => exact effect_execBar x nn s
  | write x count => exact effect_execWrite x count s
  | dps x => exact ⟨_, rfl, hadvance (bodyFrame_busSetPointer (.inr (.inr (.inl rfl))) _)⟩
  | dpg x => exact effect_execDpg x s
  | callr x => exact effect_callTo (.inr ⟨x, rfl⟩) _
  | mpar x => exact ⟨_, exec_mpar x s, hadvance (bodyFrame_setMp (.inr ⟨x, rfl⟩) _)⟩
  | spl x => exact effect_execSpl x s
  | ld x => exact effect_execLd x s
  | read x count => exact effect_execRead x count s

theorem effect_of_exec {t : State} (h : exec i s = .next t) : Effect s i t := by
  obtain ⟨t', h', heff⟩ := exec_effect i s
  cases h.symm.trans h'
  exact heff

end

/-! ## What a run keeps (R71) -/

/-- The one induction over the cycles of a run: what holds between a state and the next holds along it. -/
theorem runCycles_of_step (R : State → State → Prop) (hrefl : ∀ s, R s s)
    (htrans : ∀ {s t u}, R s t → R t u → R s u) (hstep : ∀ {s t}, step s = .next t → R s t) :
    ∀ {n : Nat} {s t : State}, runCycles n s = .next t → R s t
  | 0, s, t, h => by cases h; exact hrefl s
  | n + 1, s, t, h => by
    rw [runCycles] at h
    cases hs : step s with
    | next u =>
      rw [hs] at h
      exact htrans (hstep hs) (runCycles_of_step R hrefl htrans hstep h)
    | fault | refused => rw [hs] at h; cases h

theorem runCycles_of_not_running {s : State} (h : s.status ≠ .running) : ∀ m, runCycles m s = .next s
  | 0 => rfl
  | m + 1 => by rw [runCycles, step_of_not_running h]; exact runCycles_of_not_running h m

/-- A run goes on from where its first part ended. -/
theorem runCycles_add {m : Nat} {t : State} : ∀ {n : Nat} {s : State}, runCycles n s = .next t →
    runCycles (n + m) s = runCycles m t
  | 0, s, h => by cases h; rw [Nat.zero_add]
  | n + 1, s, h => by
    rw [Nat.add_right_comm, runCycles]
    rw [runCycles] at h
    cases hs : step s with
    | next u => rw [hs] at h; exact runCycles_add h
    | fault | refused => rw [hs] at h; cases h

/-! ## What an effect keeps -/

section
variable {i : Instr} {s t : State}

theorem Effect.inv (h : Effect s i t) (hs : s.Inv) : t.Inv := by
  obtain ⟨hmem, hstack, hdev⟩ := hs
  cases h with
  | halt | underflow | overflow | jump => exact ⟨hmem, hstack, hdev⟩
  | ret hst =>
    rw [hst, List.length_append] at hstack
    exact ⟨hmem, Nat.le_of_add_right_le hstack, hdev⟩
  | call a ra _ hroom =>
    refine ⟨hmem, ?_, hdev⟩
    rw [List.length_append]
    exact Nat.lt_of_le_of_ne hstack hroom
  | @advance _ k u hk hbody =>
    refine ⟨by rw [advance_mem]; exact hbody.memWf hmem, by rw [advance_stack, hbody.stack]; exact hstack, ?_⟩
    intro j d hd
    rw [readSlot_advance] at hd
    rcases hbody.dev j with hsame | ⟨e, e', -, he, he', hkeep⟩
    · exact hdev j d (hsame.symm.trans hd)
    · cases he'.symm.trans hd
      exact hkeep.wf (hdev j e he)

theorem Effect.alert (h : Effect s i t) (hs : s.alert = true) : t.alert = true := by
  cases h with
  | halt | ret | call | jump => exact hs
  | underflow | overflow => rfl
  | advance hk hbody => rw [advance_alert]; exact hbody.alert hs

theorem Effect.regs (h : Effect s i t) : sameRegsBut (regsWritten i) s t := by
  cases h with
  | halt | underflow | ret | overflow | call | jump => exact fun _ _ => rfl
  | advance hk hbody => exact fun r hr => (readReg_advance r _ _).trans (hbody.regs r hr)

theorem Effect.mp (h : Effect s i t) (hsmp : ∀ a, i ≠ .smp a) (hmpar : ∀ x, i ≠ .mpar x) : t.mp = s.mp := by
  cases h with
  | halt | underflow | ret | overflow | call | jump => rfl
  | advance hk hbody => exact (advance_mp _ _).trans (hbody.mp hsmp hmpar)

theorem Effect.mem (h : Effect s i t) (hspl : ∀ x, i ≠ .spl x) (hread : ∀ x n, i ≠ .read x n) : t.mem = s.mem := by
  cases h with
  | halt | underflow | ret | overflow | call | jump => rfl
  | advance hk hbody => exact (advance_mem _ _).trans (hbody.mem hspl hread)

theorem Effect.dev (h : Effect s i t) (k : Slot) : readSlot k t = readSlot k s ∨ DeviceOperated i k s t := by
  cases h with
  | halt | underflow | ret | overflow | call | jump => exact .inl rfl
  | advance hk hbody => rw [DeviceOperated, readSlot_advance]; exact hbody.dev k

end

/-! ## What a step keeps -/

/-- A relation that every effect, every change of `status` and every illegal word respects holds across a step. -/
theorem step_induct (R : State → State → Prop) (hrefl : ∀ s, R s s)
    (hend : ∀ s, R s { s with status := .outOfBounds })
    (hexec : ∀ {i s t}, Effect s i t → R s t)
    (hillegal : ∀ s, R s (advance 2 { s with alert := true })) {s t : State} (h : step s = .next t) : R s t := by
  rcases step_cases h with ⟨-, rfl⟩ | ⟨-, -, rfl⟩ | ⟨-, -, i, -, hi⟩ | ⟨-, -, w, rfl⟩
  · exact hrefl _
  · exact hend s
  · exact hexec (effect_of_exec hi)
  · exact hillegal s

/-- Every slot keeps its binding, and a rom its contents. -/
def SameBindings (s t : State) : Prop :=
  ∀ k, (readSlot k t).map Device.kind = (readSlot k s).map Device.kind ∧
    (readSlot k t).map Device.fixedPart = (readSlot k s).map Device.fixedPart

theorem sameBindings_of_sameDevices {s t : State} (h : sameDevices s t) : SameBindings s t :=
  fun k => by rw [h k]; exact ⟨rfl, rfl⟩

theorem SameBindings.trans {s t u : State} (h : SameBindings s t) (h' : SameBindings t u) : SameBindings s u :=
  fun k => ⟨(h' k).1.trans (h k).1, (h' k).2.trans (h k).2⟩

theorem Effect.sameBindings {i : Instr} {s t : State} (h : Effect s i t) : SameBindings s t := by
  intro k
  rcases h.dev k with hk | ⟨d, d', -, hd, hd', hkeep⟩
  · rw [hk]; exact ⟨rfl, rfl⟩
  · rw [hd, hd', Option.map_some, Option.map_some, Option.map_some, Option.map_some, hkeep.kind, hkeep.fixedPart]
    exact ⟨rfl, rfl⟩

/-- An advance that stops a running machine left the address space. -/
theorem advance_stops {k : Nat} {s u : State} (hk : k = 2 ∨ k = 4) (hpc : u.pc = s.pc) (hstatus : u.status = s.status)
    (hrun : s.status = .running) (hstop : (advance k u).status ≠ .running) :
    (advance k u).status = .outOfBounds ∧ ∃ k', (k' = 2 ∨ k' = 4) ∧ s.pc.toNat + k' ≥ 4096 ∧
      (advance k u).pc.toNat = (s.pc.toNat + k') % 4096 := by
  have hend := advance_status_eq k u (by omega)
  rw [hpc, hstatus, hrun] at hend
  by_cases hin : s.pc.toNat + k < 4096
  · rw [if_pos hin] at hend
    exact absurd hend hstop
  · rw [if_neg hin] at hend
    exact ⟨hend, k, hk, Nat.le_of_not_lt hin, by rw [advance_pc_toNat, hpc]⟩

end

/-! ## The obligations -/

/-- Settles O46. -/
theorem stepKeepsInvariant : Obligations.StepKeepsInvariant := by
  intro s t hs h
  refine step_induct (fun s t => s.Inv → t.Inv) (fun _ => id) ?_ (fun heff => heff.inv) ?_ h hs
  · exact fun s ⟨hmem, hstack, hdev⟩ => ⟨hmem, hstack, hdev⟩
  · intro s ⟨hmem, hstack, hdev⟩
    exact ⟨by rw [Machine.advance_mem]; exact hmem, by rw [Machine.advance_stack]; exact hstack,
      fun k d hd => hdev k d ((Machine.readSlot_advance k 2 { s with alert := true }).symm.trans hd)⟩

/-- Settles O10. -/
theorem stepAlwaysAnswersNext : Obligations.StepAlwaysAnswersNext := by
  intro s
  by_cases hrun : s.status = .running
  · by_cases hpc : s.pc = 0xFFF
    · exact ⟨_, step_of_pc_top hrun hpc⟩
    · cases hdecode : decode (Sys2Proof.joinBytes (s.mem.read s.pc.toNat) (s.mem.read (s.pc.toNat + 1))) with
      | ok i =>
        obtain ⟨t, ht, -⟩ := exec_effect i s
        exact ⟨t, (step_of_decode_ok hrun hpc hdecode).trans ht⟩
      | error e => exact ⟨_, step_of_decode_error hrun hpc hdecode⟩
  · exact ⟨s, step_of_not_running hrun⟩

/-- Settles O11. -/
theorem stoppedRunNeverChanges : Obligations.StoppedRunNeverChanges := fun _ m _ _ hrun hstop =>
  (runCycles_add hrun).trans (runCycles_of_not_running hstop m)

/-- Settles O52. -/
theorem alertIsSticky : Obligations.AlertIsSticky := by
  intro n s t hs h
  have hstep : ∀ {s t}, Machine.step s = .next t → s.alert = true → t.alert = true :=
    step_induct (fun s t => s.alert = true → t.alert = true) (fun _ => id) (fun _ => id) Effect.alert
      (fun s _ => Machine.advance_alert 2 { s with alert := true })
  exact runCycles_of_step (fun s t => s.alert = true → t.alert = true) (fun _ => id) (fun hst htu => htu ∘ hst)
    hstep h hs

/-- Settles O53. -/
theorem bindingsAndRomContentsAreConstant : Obligations.BindingsAndRomContentsAreConstant := by
  intro n s t k h
  have hsame : ∀ s, SameBindings s s := fun _ => sameBindings_of_sameDevices (fun _ => rfl)
  have hstep : ∀ {s t}, Machine.step s = .next t → SameBindings s t :=
    step_induct SameBindings hsame (fun _ => sameBindings_of_sameDevices (fun _ => rfl)) Effect.sameBindings
      (fun _ => sameBindings_of_sameDevices (fun k => Machine.readSlot_advance k 2 _))
  exact runCycles_of_step SameBindings hsame SameBindings.trans hstep h k

/-- Settles O54. -/
theorem onlySplAndReadWriteMemory : Obligations.OnlySplAndReadWriteMemory := by
  intro i s t h hspl hread a
  rw [(effect_of_exec h).mem hspl hread]

/-- Settles O55. -/
theorem onlySmpAndMparWriteMp : Obligations.OnlySmpAndMparWriteMp := fun _ _ _ h => (effect_of_exec h).mp

/-- Settles O56. Outside a completed call and a completed return the stack is the same. -/
theorem onlyCallsAndRetMoveStack : Obligations.OnlyCallsAndRetMoveStack := by
  intro i s t h
  have hnotRet : IsCall i → i ≠ .ret := by rintro (⟨a, rfl⟩ | ⟨x, rfl⟩) <;> exact nofun
  have hsame : ∀ {P : Prop}, t.stack = s.stack →
      (t.stack ≠ s.stack → P) ∧ (IsCall i → t.stack = s.stack ∨ ∃ v, t.stack = s.stack ++ [v]) ∧
        (i = .ret → t.stack = s.stack ∨ ∃ v, s.stack = t.stack ++ [v]) :=
    fun heq => ⟨absurd heq, fun _ => .inl heq, fun _ => .inl heq⟩
  cases effect_of_exec h with
  | halt | underflow | overflow | jump => exact hsame rfl
  | ret hst => exact ⟨fun _ => .inr (.inr rfl), fun hcall => absurd rfl (hnotRet hcall), fun _ => .inr ⟨_, hst⟩⟩
  | call a ra hcall hroom =>
    exact ⟨fun _ => hcall.imp_right .inl, fun _ => .inr ⟨ra, rfl⟩, fun hret => absurd hret (hnotRet hcall)⟩
  | advance hk hbody => exact hsame ((Machine.advance_stack _ _).trans hbody.stack)

/-- Settles O57. -/
theorem devicesActOnlyInTheirOwnSlot : Obligations.DevicesActOnlyInTheirOwnSlot := by
  intro i s t k h hne
  rcases (effect_of_exec h).dev k with hk | ⟨d, d', hacts, -⟩
  · exact absurd hk hne
  · exact hacts

/-- Settles O58. -/
theorem runEndsOnlyAsListed : Obligations.RunEndsOnlyAsListed := by
  intro s t hrun h hstop
  rcases Machine.step_cases h with ⟨hnot, -⟩ | ⟨-, hpc, rfl⟩ | ⟨-, -, i, hdecode, hi⟩ | ⟨-, -, w, rfl⟩
  · exact absurd hrun hnot
  · exact .inl ⟨rfl, rfl, hpc⟩
  · cases effect_of_exec hi with
    | halt => exact .inr (.inr ⟨rfl, _, hdecode, .inl rfl⟩)
    | underflow hnil => exact .inr (.inr ⟨rfl, _, hdecode, .inr (.inl ⟨rfl, hnil⟩)⟩)
    | overflow hcall hfull => exact .inr (.inr ⟨rfl, _, hdecode, .inr (.inr ⟨hcall, hfull⟩)⟩)
    | ret | call | jump => exact absurd hrun hstop
    | advance hk hbody => exact .inr (.inl (advance_stops hk hbody.pc hbody.status hrun hstop))
  · exact .inr (.inl
      (advance_stops (.inl rfl) (Machine.raise_pc _ s) (Machine.raise_illegalOpcode_status w s) hrun hstop))

end Sys2Proof.Proofs

/-! SUPPORT. What has no influence on what (spec 10_state.md R12, R16; 60_exceptions.md R171): two states that
differ at most in some registers and in the alert, that every operation keeps such a pair so as long as the
registers it reads agree, and from these obligations O50 and O51. -/

namespace Sys2Proof.Proofs

section
open Sys2Proof.Machine

/-! ## Pairs of states that differ in registers and the alert only -/

/-- The two states agree in the registers of `R`, in the alert if `A` asks for it, and in everything else. -/
structure Alike (R : Reg → Prop) (A : Prop) (s s' : State) : Prop where
  regs : ∀ r, R r → readReg r s' = readReg r s
  alert : A → s'.alert = s.alert
  pc : s'.pc = s.pc
  mp : s'.mp = s.mp
  status : s'.status = s.status
  stack : s'.stack = s.stack
  mem : s'.mem = s.mem
  dev : s'.dev = s.dev
  draws : s'.draws = s.draws

/-- Two outcomes that are alike next states, or the same fault. -/
inductive AlikeResult (R : Reg → Prop) (A : Prop) : Result → Result → Prop
  | next {t t' : State} : Alike R A t t' → AlikeResult R A (.next t) (.next t')
  | fault (f : Fault) : AlikeResult R A (.fault f) (.fault f)

variable {R : Reg → Prop} {A : Prop} {s s' : State}

theorem alike_writeReg_right (r : Reg) (v : Word) (s : State) : Alike (· ≠ r) True s (writeReg r v s) where
  regs q hq := by rw [readReg_writeReg, if_neg hq]
  alert _ := rfl
  pc := rfl
  mp := rfl
  status := rfl
  stack := rfl
  mem := rfl
  dev := rfl
  draws := rfl

theorem alike_setAlert_right (b : Bool) (s : State) : Alike (fun _ => True) False s { s with alert := b } where
  regs _ _ := rfl
  alert := False.elim
  pc := rfl
  mp := rfl
  status := rfl
  stack := rfl
  mem := rfl
  dev := rfl
  draws := rfl

/-- With one register put out of sight, states that differ there alone are equal. -/
theorem Alike.writeReg_eq {r : Reg} (h : Alike (· ≠ r) True s s') (v : Word) : writeReg r v s' = writeReg r v s := by
  have hregs : s'.regs.set r.val v = s.regs.set r.val v := by
    apply Vector.ext
    intro i hi
    rw [Vector.getElem_set, Vector.getElem_set]
    split
    · rfl
    · exact h.regs ⟨i, hi⟩ (fun heq => ‹¬ r.val = i› (Fin.ext_iff.1 heq).symm)
  rw [writeReg, writeReg, hregs, h.alert trivial, h.pc, h.mp, h.status, h.stack, h.mem, h.dev, h.draws]

/-- With the alert put out of sight, states that differ there alone are equal. -/
theorem Alike.setAlert_eq (h : Alike (fun _ => True) False s s') (b : Bool) :
    ({ s' with alert := b } : State) = { s with alert := b } := by
  have hregs : s'.regs = s.regs := Vector.ext fun i hi => h.regs ⟨i, hi⟩ trivial
  rw [hregs, h.pc, h.mp, h.status, h.stack, h.mem, h.dev, h.draws]

theorem AlikeResult.mapNext_eq {r r' : Result} {g : State → State} (h : AlikeResult R A r r')
    (hg : ∀ {t t'}, Alike R A t t' → g t' = g t) : mapNext g r' = mapNext g r := by
  cases h with
  | next ht => exact congrArg Host.Outcome.next (hg ht)
  | fault f => rfl

/-! ## The shared operations keep a pair alike -/

theorem Alike.readSlot (h : Alike R A s s') (k : Slot) : readSlot k s' = readSlot k s := readSlot_congr k h.dev

theorem Alike.writeReg (h : Alike R A s s') (x : Reg) (v : Word) : Alike R A (writeReg x v s) (writeReg x v s') :=
  { h with
    regs := fun r hr => by rw [readReg_writeReg, readReg_writeReg, h.regs r hr] }

theorem Alike.writeResultThenFlag (h : Alike R A s s') (x : Reg) (v : Word) (f : Bool) :
    Alike R A (writeResultThenFlag x v f s) (writeResultThenFlag x v f s') :=
  (h.writeReg x v).writeReg flagReg (flagWord f)

theorem Alike.raise (h : Alike R A s s') (e : Exc) : Alike R A (raise e s) (raise e s') := by
  cases e with
  | illegalOpcode | deviceAbsent | deviceFault | rangeTruncated => exact { h with alert := fun _ => rfl }
  | stackOverflow | stackUnderflow => exact { h with alert := fun _ => rfl, status := rfl }
  | pcOutOfBounds => exact { h with status := rfl }

theorem Alike.advance {k : Nat} (hk : k ≤ 4096) (h : Alike R A s s') : Alike R A (advance k s) (advance k s') where
  regs r hr := by rw [readReg_advance, readReg_advance, h.regs r hr]
  alert ha := by rw [advance_alert, advance_alert, h.alert ha]
  pc := BitVec.eq_of_toNat_eq (by rw [advance_pc_toNat, advance_pc_toNat, h.pc])
  mp := by rw [advance_mp, advance_mp, h.mp]
  status := by rw [advance_status_eq k _ hk, advance_status_eq k _ hk, h.pc, h.status]
  stack := by rw [advance_stack, advance_stack, h.stack]
  mem := by rw [advance_mem, advance_mem, h.mem]
  dev := by rw [advance_dev, advance_dev, h.dev]
  draws := by rw [advance_draws, advance_draws, h.draws]

theorem Alike.checkRange (h : Alike R A s s') (n : Nat) : Alike R A (checkRange n s) (checkRange n s') := by
  unfold Machine.checkRange
  rw [h.mp]
  split
  · exact h.raise _
  · exact h

theorem Alike.settle {α : Type} (h : Alike R A s s') (k : Slot) (q : Reply Device α) :
    Alike R A (settle k q s) (settle k q s') := by
  have hput : Alike R A (putDevice k q.state s) (putDevice k q.state s') :=
    { h with dev := by rw [putDevice_dev, putDevice_dev, h.dev] }
  unfold Machine.settle
  split
  · exact hput.raise _
  · exact hput

theorem Alike.busWrite (h : Alike R A s s') (k : Slot) (bs : List Byte) :
    Alike R A (busWrite k bs s) (busWrite k bs s') := by
  cases hd : Machine.readSlot k s with
  | none => rw [busWrite_absent bs hd, busWrite_absent bs ((h.readSlot k).trans hd)]; exact h.raise _
  | some d => rw [busWrite_present bs hd, busWrite_present bs ((h.readSlot k).trans hd)]; exact h.settle k _

theorem Alike.busSetPointer (h : Alike R A s s') (k : Slot) (v : Word) :
    Alike R A (busSetPointer k v s) (busSetPointer k v s') := by
  cases hd : Machine.readSlot k s with
  | none =>
    rw [busSetPointer_absent v hd, busSetPointer_absent v ((h.readSlot k).trans hd)]
    exact h.raise _
  | some d =>
    rw [busSetPointer_present v hd, busSetPointer_present v ((h.readSlot k).trans hd)]
    exact h.settle k _

theorem Alike.busRead (h : Alike R A s s') (k : Slot) (n : Nat) :
    Alike R A (busRead k n s).1 (busRead k n s').1 ∧ (busRead k n s').2 = (busRead k n s).2 := by
  cases hd : Machine.readSlot k s with
  | none =>
    rw [busRead_absent n hd, busRead_absent n ((h.readSlot k).trans hd)]
    exact ⟨h.raise (.deviceAbsent k), rfl⟩
  | some d =>
    rw [busRead_present n hd, busRead_present n ((h.readSlot k).trans hd)]
    exact ⟨h.settle k _, rfl⟩

/-- Storing looks at no register and no alert: both stores succeed, or both fail alike. -/
theorem Alike.storeBytes : ∀ (a : Nat) (bs : List Byte) {s s' : State}, Alike R A s s' →
    (∃ t t', storeBytes a bs s = .ok t ∧ storeBytes a bs s' = .ok t' ∧ Alike R A t t') ∨
    (∃ f, storeBytes a bs s = .error f ∧ storeBytes a bs s' = .error f)
  | _, [], s, s', h => .inl ⟨s, s', rfl, rfl, h⟩
  | a, b :: bs, s, s', h => by
    by_cases ha : a < 4096
    · have hstep : Alike R A { s with mem := s.mem.write a b } { s' with mem := s'.mem.write a b } :=
        { h with mem := by rw [h.mem] }
      simp only [Machine.storeBytes, storeByte_ok b ha]
      exact Alike.storeBytes (a + 1) bs hstep
    · have hfail : ∀ u, storeByte a b u = .error (.outsideMemory a) := fun _ => if_neg ha
      have hall : ∀ u, Machine.storeBytes a (b :: bs) u = .error (.outsideMemory a) := fun u => by
        simp only [Machine.storeBytes, hfail]
      exact .inr ⟨.outsideMemory a, hall s, hall s'⟩

/-! ## The instructions keep a pair alike -/

theorem Alike.finish (h : Alike R A s s') (x : Reg) (v : Word) : AlikeResult R A (finish x v s) (finish x v s') :=
  .next ((h.writeReg x v).advance (by decide))

theorem Alike.finishWithFlag (h : Alike R A s s') (x : Reg) (v : Word) (f : Bool) :
    AlikeResult R A (finishWithFlag x v f s) (finishWithFlag x v f s') :=
  .next ((h.writeResultThenFlag x v f).advance (by decide))

theorem Alike.skipWhen (h : Alike R A s s') (c : Bool) : Alike R A (skipWhen c s) (skipWhen c s') := by
  rw [skipWhen_eq_advance, skipWhen_eq_advance]
  cases c <;> exact h.advance (by decide)

theorem Alike.callTo (h : Alike R A s s') (a : Addr) : AlikeResult R A (callTo a s) (callTo a s') := by
  by_cases hfull : s.stack.length = 16
  · rw [callTo_of_full a hfull, callTo_of_full a (h.stack ▸ hfull)]
    exact .next { h with alert := fun _ => rfl, status := rfl }
  · obtain ⟨-, hcall⟩ := (callTo_cases a s).resolve_left (hfull ·.1)
    obtain ⟨-, hcall'⟩ := (callTo_cases a s').resolve_left (fun hf => hfull (h.stack ▸ hf.1))
    rw [hcall, hcall']
    exact .next { h with pc := rfl, stack := by rw [h.stack, h.pc] }

theorem Alike.execRet (h : Alike R A s s') : AlikeResult R A (execRet s) (execRet s') := by
  rcases execRet_cases s with ⟨hnil, -⟩ | ⟨st, v, hst, -⟩
  · rw [execRet_of_empty hnil, execRet_of_empty (h.stack.trans hnil)]
    exact .next { h with alert := fun _ => rfl, status := rfl }
  · rw [execRet_of_top hst, execRet_of_top (h.stack.trans hst)]
    exact .next { h with pc := rfl, stack := rfl }

theorem Alike.execBar (h : Alike R A s s') (x : Reg) (nn : Byte) :
    AlikeResult R A (execBar x nn s) (execBar x nn s') := by
  have hdraw : Alike R A { s with draws := s.draws + 1 } { s' with draws := s'.draws + 1 } :=
    { h with draws := by rw [h.draws] }
  rw [Machine.execBar, Machine.execBar, h.draws] at *
  exact hdraw.finish x _

theorem Alike.execWrite (h : Alike R A s s') (x : Slot) (n : Nat) :
    AlikeResult R A (execWrite x n s) (execWrite x n s') := by
  have hbytes : windowBytes s' n = windowBytes s n := by rw [windowBytes, windowBytes, h.mp, h.mem]
  rw [execWrite_eq, execWrite_eq, hbytes]
  exact .next (((h.checkRange n).busWrite x _).advance (by decide))

theorem Alike.execDpg (h : Alike R A s s') (x : Slot) : AlikeResult R A (execDpg x s) (execDpg x s') := by
  cases hd : Machine.readSlot x s with
  | none =>
    simp only [Machine.execDpg, busGetPointer_absent hd, busGetPointer_absent ((h.readSlot x).trans hd)]
    exact .next ((h.raise _).advance (by decide))
  | some d =>
    simp only [Machine.execDpg, busGetPointer_present hd, busGetPointer_present ((h.readSlot x).trans hd)]
    exact .next (((h.settle x _).writeReg flagReg _).advance (by decide))

/-- How SPL and READ end: the bytes are stored, then comes the advance. -/
def storeAndAdvance (a : Nat) (bs : List Byte) (s : State) : Result :=
  match storeBytes a bs s with
  | .error f => .fault f
  | .ok t => .next (advance 2 t)

theorem execSpl_eq_storeAndAdvance (x : Reg) (s : State) :
    execSpl x s = storeAndAdvance s.mp.toNat (splBytes s.mp (readReg x s)) (checkRange 2 s) := rfl

theorem execRead_eq_storeAndAdvance (x : Slot) (n : Nat) (s : State) :
    execRead x n s = storeAndAdvance s.mp.toNat (busRead x (window s.mp n) (checkRange n s)).2
      (busRead x (window s.mp n) (checkRange n s)).1 := rfl

theorem Alike.storeAndAdvance (h : Alike R A s s') (a : Nat) (bs : List Byte) :
    AlikeResult R A (storeAndAdvance a bs s) (storeAndAdvance a bs s') := by
  rcases Alike.storeBytes a bs h with ⟨t, t', ht, ht', halike⟩ | ⟨f, hf, hf'⟩
  · simp only [Proofs.storeAndAdvance, ht, ht']
    exact .next (halike.advance (by decide))
  · simp only [Proofs.storeAndAdvance, hf, hf']
    exact .fault f

theorem Alike.execSpl (h : Alike R A s s') {x : Reg} (hx : R x) : AlikeResult R A (execSpl x s) (execSpl x s') := by
  rw [execSpl_eq_storeAndAdvance, execSpl_eq_storeAndAdvance, h.mp, h.regs x hx]
  exact (h.checkRange 2).storeAndAdvance _ _

theorem Alike.execRead (h : Alike R A s s') (x : Slot) (n : Nat) :
    AlikeResult R A (execRead x n s) (execRead x n s') := by
  obtain ⟨hbus, hreply⟩ := (h.checkRange n).busRead x (window s.mp n)
  rw [execRead_eq_storeAndAdvance, execRead_eq_storeAndAdvance, h.mp, hreply]
  exact hbus.storeAndAdvance _ _

/-- A register LD loads gets the same word from the same memory, and every other keeps what it held. -/
theorem Alike.execLd (h : Alike R A s s') (x : Reg) : AlikeResult R A (execLd x s) (execLd x s') := by
  obtain ⟨rs, hld, hin, hout⟩ := execLd_eq x s
  obtain ⟨rs', hld', hin', hout'⟩ := execLd_eq x s'
  have hword : ∀ k, ldWord s' k = ldWord s k := fun k => by rw [ldWord, ldWord, h.mp, h.mem]
  have hregs : ∀ k, R k → readReg k { s' with regs := rs' } = readReg k { s with regs := rs } := by
    intro k hk
    by_cases hload : k ≤ x ∧ inWindow s.mp k
    · rw [hin k hload.1 hload.2, hin' k hload.1 (h.mp ▸ hload.2), hword k]
    · have hkeep : ¬ k ≤ x ∨ ¬ inWindow s.mp k := not_and_or.1 hload
      rw [hout k hkeep, hout' k (h.mp ▸ hkeep), h.regs k hk]
  rw [hld, hld']
  have hboth := h.checkRange (2 * (x.val + 1))
  exact .next (Alike.advance (by decide) { hboth with regs := hregs })

/-- The registers an instruction reads decide, with the rest of the state, what it does. -/
theorem Alike.exec (h : Alike R A s s') {i : Instr} (hread : ∀ r ∈ regsRead i, R r) :
    AlikeResult R A (exec i s) (exec i s') := by
  have hreg : ∀ {r}, r ∈ regsRead i → Machine.readReg r s' = Machine.readReg r s := fun hr => h.regs _ (hread _ hr)
  have hfirst : ∀ {x : Reg} {l : List Reg}, x ∈ x :: l := List.mem_cons_self
  have hsecond : ∀ {x y : Reg}, y ∈ [x, y] := List.mem_cons_of_mem _ hfirst
  cases i with
  | halt => exact .next { h with status := rfl }
  | ret => exact h.execRet
  | goto nnn => exact .next { h with pc := rfl }
  | call nnn => exact h.callTo nnn
  | snec x nn => rw [exec_snec, exec_snec, hreg hfirst]; exact .next (h.skipWhen _)
  | snuec x nn => rw [exec_snuec, exec_snuec, hreg hfirst]; exact .next (h.skipWhen _)
  | sne x y => rw [exec_sne, exec_sne, hreg hfirst, hreg hsecond]; exact .next (h.skipWhen _)
  | snue x y => rw [exec_snue, exec_snue, hreg hfirst, hreg hsecond]; exact .next (h.skipWhen _)
  | acr x nn => exact h.finish x _
  | adc x nn => rw [exec_adc, exec_adc, hreg hfirst]; exact h.finish x _
  | ar x y => rw [exec_ar, exec_ar, hreg hfirst]; exact h.finish x _
  | or x y => rw [exec_or, exec_or, hreg hfirst, hreg hsecond]; exact h.finish x _
  | and x y => rw [exec_and, exec_and, hreg hfirst, hreg hsecond]; exact h.finish x _
  | xor x y => rw [exec_xor, exec_xor, hreg hfirst, hreg hsecond]; exact h.finish x _
  | add x y => rw [exec_add, exec_add, hreg hfirst, hreg hsecond]; exact h.finishWithFlag x _ _
  | sub x y => rw [exec_sub, exec_sub, hreg hfirst, hreg hsecond]; exact h.finishWithFlag x _ _
  | rsub x y => rw [exec_rsub, exec_rsub, hreg hfirst, hreg hsecond]; exact h.finishWithFlag x _ _
  | shr x count => rw [exec_shr, exec_shr, hreg hfirst]; exact h.finishWithFlag x _ _
  | shl x count => rw [exec_shl, exec_shl, hreg hfirst]; exact h.finishWithFlag x _ _
  | smp nnn => rw [exec_smp, exec_smp]; exact .next (Alike.advance (by decide) { h with mp := rfl })
  | cpac nnn => rw [exec_cpac, exec_cpac, hreg hfirst]; exact .next { h with pc := rfl }
  | bar x nn => exact h.execBar x nn
  | write x count => exact h.execWrite x count
  | dps x =>
    have hptr : Machine.readReg flagReg s' = Machine.readReg flagReg s := hreg hfirst
    show AlikeResult R A (execDps x s) (execDps x s')
    rw [execDps, execDps, hptr]
    exact .next ((h.busSetPointer x _).advance (by decide))
  | dpg x => exact h.execDpg x
  | callr x => rw [exec_callr, exec_callr, hreg hfirst]; exact h.callTo _
  | rmp x => rw [exec_rmp, exec_rmp, h.mp]; exact h.finish x _
  | mpar x =>
    rw [exec_mpar, exec_mpar, hreg hfirst, h.mp]
    exact .next (Alike.advance (by decide) { h with mp := rfl })
  | spl x => exact h.execSpl (hread x hfirst)
  | ld x => exact h.execLd x
  | read x count => exact h.execRead x count

/-- The cycle looks at `status`, `pc` and memory, which alike states share. -/
theorem Alike.step (h : Alike (fun _ => True) A s s') : AlikeResult (fun _ => True) A (step s) (step s') := by
  by_cases hrun : s.status = .running
  · have hrun' : s'.status = .running := h.status.trans hrun
    by_cases hpc : s.pc = 0xFFF
    · rw [step_of_pc_top hrun hpc, step_of_pc_top hrun' (h.pc.trans hpc)]
      exact .next (h.raise _)
    · have hpc' : s'.pc ≠ 0xFFF := h.pc ▸ hpc
      have hword : joinBytes (s'.mem.read s'.pc.toNat) (s'.mem.read (s'.pc.toNat + 1)) =
          joinBytes (s.mem.read s.pc.toNat) (s.mem.read (s.pc.toNat + 1)) := by rw [h.mem, h.pc]
      cases hdecode : decode (joinBytes (s.mem.read s.pc.toNat) (s.mem.read (s.pc.toNat + 1))) with
      | ok i =>
        rw [step_of_decode_ok hrun hpc hdecode, step_of_decode_ok hrun' hpc' (hword ▸ hdecode)]
        exact h.exec (fun _ _ => trivial)
      | error e =>
        rw [step_of_decode_error hrun hpc hdecode, step_of_decode_error hrun' hpc' (hword ▸ hdecode), hword]
        exact .next ((h.raise _).advance (by decide))
  · rw [step_of_not_running hrun, step_of_not_running (h.status ▸ hrun)]
    exact .next h

end

/-! ## The obligations -/

/-- Settles O50. -/
theorem registerUseFollowsTable : Obligations.RegisterUseFollowsTable := by
  refine fun i s => ⟨fun t h => (effect_of_exec h).regs, fun r v hr => ?_⟩
  have hread : ∀ q ∈ Machine.regsRead i, q ≠ r := fun q hq hqr => hr (hqr ▸ hq)
  exact ((alike_writeReg_right r v s).exec hread).mapNext_eq (fun ht => ht.writeReg_eq 0)

/-- Settles O51. -/
theorem alertIsInvisibleToPrograms : Obligations.AlertIsInvisibleToPrograms := fun s b =>
  (alike_setAlert_right b s).step.mapNext_eq (fun ht => ht.setAlert_eq false)

end Sys2Proof.Proofs

/-! SUPPORT. BAR, and the instructions that move bytes between registers, memory and devices (spec
42_register_alu.md R102; 43_memory_pointer.md R113, R114, R116; 44_device_instructions.md R120 to R123;
20_memory.md R44): frames from the fields of the two states, words as bytes, and from these obligations O28,
O30 to O37 and O60. -/

namespace Sys2Proof.Proofs

section
open Sys2Proof.Machine

/-! ## BAR (R102) -/

theorem exec_bar (x : Reg) (nn : Byte) (s : State) :
    exec (.bar x nn) s = finish x (maskedDraw (Config.draw8 s.draws) nn) { s with draws := s.draws + 1 } := rfl

theorem maskedDraw_toNat (draw nn : Byte) : (maskedDraw draw nn).toNat = (draw &&& nn).toNat :=
  BitVec.toNat_setWidth_of_le (by decide)

theorem maskedDraw_and_not_mask (draw nn : Byte) : maskedDraw draw nn &&& ~~~(nn.setWidth 16) = 0 := by
  rw [maskedDraw, BitVec.setWidth_and, BitVec.and_assoc, BitVec.and_not_self]
  exact BitVec.and_zero

/-! ## Frames from the fields -/

/-- When no field but `pc` and `status` differs. -/
theorem onlyRegs_of_fields {s t : State} (regs : t.regs = s.regs := by simp) (mp : t.mp = s.mp := by simp)
    (alert : t.alert = s.alert := by simp) (stack : t.stack = s.stack := by simp) (mem : t.mem = s.mem := by simp)
    (dev : t.dev = s.dev := by simp) (draws : t.draws = s.draws := by simp) : OnlyRegs [] s t where
  regs r _ := readReg_congr r regs
  mp := mp
  alert := alert
  stack := stack
  mem a := by rw [mem]
  dev k := readSlot_congr k dev
  draws := draws

/-- A range that fits raises nothing. -/
theorem checkRange_of_fits {n : Nat} {s : State} (h : s.mp.toNat + n ≤ 4096) : checkRange n s = s :=
  if_neg (by rw [passesTop_eq, decide_eq_true_iff]; omega)

/-! ## A word and its two bytes (20_memory.md R30) -/

theorem hiByte_toNat (v : Word) : (hiByte v).toNat = v.toNat / 256 := by
  have := v.isLt
  rw [hiByte, BitVec.extractLsb'_toNat, Nat.shiftRight_eq_div_pow]
  omega

theorem loByte_toNat (v : Word) : (loByte v).toNat = v.toNat % 256 := by
  rw [loByte, BitVec.extractLsb'_toNat, Nat.shiftRight_zero]

/-- Two bytes that are the high and the low one of a word join to it. -/
theorem joinBytes_eq {hi lo : Byte} {v : Word} (hhi : hi.toNat = v.toNat / 256) (hlo : lo.toNat = v.toNat % 256) :
    joinBytes hi lo = v := by
  apply BitVec.eq_of_toNat_eq
  rw [joinBytes_toNat, hhi, hlo]
  omega

/-! ## SPL (R113) -/

theorem exec_spl (x : Reg) (s : State) : exec (.spl x) s = execSpl x s := rfl

theorem splBytes_of_fits {mp : Addr} (h : mp.toNat + 2 ≤ 4096) (v : Word) : splBytes mp v = [hiByte v, loByte v] := by
  have hwindow : window mp 2 = 2 := (window_eq_iff mp 2).2 (decide_eq_false (Nat.not_lt.2 h))
  rw [splBytes, hwindow]; rfl

theorem splBytes_at_top {mp : Addr} (h : mp.toNat = 0xFFF) (v : Word) : splBytes mp v = [hiByte v] := by
  rw [splBytes, window, h]; rfl

/-- SPL where both bytes fit: the bytes read back, and nothing else but `pc` and `status` changes. -/
theorem exec_spl_of_fits (x : Reg) {s : State} (hs : s.Inv) (h : s.mp.toNat + 2 ≤ 4096) :
    ∃ t, exec (.spl x) s = .next t ∧
      t.mem.read s.mp.toNat = hiByte (readReg x s) ∧ t.mem.read (s.mp.toNat + 1) = loByte (readReg x s) ∧
      sameMemOutside s.mp.toNat 2 s t ∧ OnlyRegs [] s { t with mem := s.mem } ∧ Advanced 2 s t := by
  obtain ⟨m, hexec, hm⟩ := execSpl_eq x s
  rw [splBytes_of_fits h] at hm
  rw [checkRange_of_fits h] at hexec
  refine ⟨_, hexec, ?_, ?_, ?_, onlyRegs_of_fields, advanced_advance_of_eq (by decide) rfl rfl⟩
  · rw [advance_mem]; exact hm.inside hs.mem 0 (by simp)
  · rw [advance_mem]; exact hm.inside hs.mem 1 (by simp)
  · intro c hc; rw [advance_mem]; exact hm.outside c hc

/-- SPL at the last address: the high byte alone, with the alert. -/
theorem exec_spl_at_top (x : Reg) {s : State} (hs : s.Inv) (h : s.mp.toNat = 0xFFF) :
    ∃ t, exec (.spl x) s = .next t ∧ t.mem.read 0xFFF = hiByte (readReg x s) ∧ t.alert = true ∧
      sameMemOutside 0xFFF 1 s t ∧ OnlyRegs [] s { t with mem := s.mem, alert := s.alert } ∧ Advanced 2 s t := by
  obtain ⟨m, hexec, hm⟩ := execSpl_eq x s
  rw [splBytes_at_top h, h] at hm
  refine ⟨_, hexec, ?_, ?_, ?_, onlyRegs_of_fields, advanced_advance_of_eq (by decide) (by simp) (by simp)⟩
  · rw [advance_mem]; exact hm.inside hs.mem 0 (by simp)
  · simp [passesTop_eq, h]
  · intro c hc; rw [advance_mem]; exact hm.outside c hc

/-! ## LD (R114) -/

theorem ldWord_toNat (s : State) (k : Reg) : (ldWord s k).toNat =
    (s.mem.read (s.mp.toNat + 2 * k.val)).toNat * 256 + (s.mem.read (s.mp.toNat + 2 * k.val + 1)).toNat :=
  joinBytes_toNat _ _

/-- LD by registers: a register of the block whose bytes fit gets its word, every other is kept. -/
theorem exec_ld_effect (x : Reg) (s : State) : ∃ t, exec (.ld x) s = .next t ∧
    (∀ k, k ≤ x → inWindow s.mp k → readReg k t = ldWord s k) ∧
    (∀ k, ¬ (k ≤ x ∧ inWindow s.mp k) → readReg k t = readReg k s) ∧
    t.alert = (s.alert || decide (s.mp.toNat + 2 * (x.val + 1) > 4096)) ∧
    OnlyRegs (List.finRange 16) s { t with alert := s.alert } ∧ Advanced 2 s t := by
  obtain ⟨rs, hexec, hin, hout⟩ := execLd_eq x s
  refine ⟨_, hexec, fun k hk hw => (readReg_advance k 2 _).trans (hin k hk hw),
    fun k hk => (readReg_advance k 2 _).trans (hout k (not_and_or.1 hk)), by simp [passesTop_eq], ?frame,
    advanced_advance_of_eq (by decide) (by simp) (by simp)⟩
  exact {
    regs := fun r hr => absurd (List.mem_finRange r) hr
    mp := by simp
    alert := rfl
    stack := by simp
    mem := fun a => by simp
    dev := fun k => readSlot_congr k (by simp)
    draws := by simp }

/-! ## The device instructions (R120 to R123) -/

theorem exec_write (x : Slot) (n : Nat) (s : State) :
    exec (.write x n) s = .next (advance 2 (busWrite x (windowBytes s n) (checkRange n s))) := execWrite_eq x n s

theorem exec_dps (x : Slot) (s : State) :
    exec (.dps x) s = .next (advance 2 (busSetPointer x (readReg 15 s) s)) := rfl

theorem exec_dpg_present {x : Slot} {s : State} {d : Device} (hd : readSlot x s = some d) :
    exec (.dpg x) s =
      .next (advance 2 (writeReg flagReg (deviceGetPointer d).value (settle x (deviceGetPointer d) s))) := by
  rcases execDpg_cases x s with ⟨hnone, -⟩ | ⟨d', hd', h⟩
  · cases hnone.symm.trans hd
  · cases hd'.symm.trans hd; exact h

theorem exec_dpg_absent {x : Slot} {s : State} (hd : readSlot x s = none) :
    exec (.dpg x) s = .next (advance 2 (raise (.deviceAbsent x) s)) := by
  rcases execDpg_cases x s with ⟨-, h⟩ | ⟨d', hd', -⟩
  · exact h
  · cases hd'.symm.trans hd

theorem exec_read_absent {x : Slot} {s : State} (n : Nat) (hd : readSlot x s = none) :
    exec (.read x n) s = .next (advance 2 (raise (.deviceAbsent x) (checkRange n s))) := by
  rcases execRead_cases x n s with ⟨-, h⟩ | ⟨d', m, hd', -⟩
  · exact h
  · cases hd'.symm.trans hd

theorem exec_read_present {x : Slot} {s : State} {d : Device} (n : Nat) (hd : readSlot x s = some d) :
    ∃ m, exec (.read x n) s =
        .next (advance 2 { settle x (deviceRead d (window s.mp n)) (checkRange n s) with mem := m }) ∧
      StoredAt s.mp.toNat (deviceRead d (window s.mp n)).value s m := by
  rcases execRead_cases x n s with ⟨hnone, -⟩ | ⟨d', m, hd', h, hm⟩
  · cases hnone.symm.trans hd
  · cases hd'.symm.trans hd; exact ⟨m, h, hm⟩

/-- An empty slot: the alert, and the advance. A range check before it does not show. -/
theorem absent_effect (x : Slot) (n : Nat) (s : State) :
    (advance 2 (raise (.deviceAbsent x) (checkRange n s))).alert = true ∧
    OnlyRegs [] s { advance 2 (raise (.deviceAbsent x) (checkRange n s)) with alert := s.alert } ∧
    Advanced 2 s (advance 2 (raise (.deviceAbsent x) (checkRange n s))) :=
  ⟨by simp, onlyRegs_of_fields, advanced_advance_of_eq (by decide) (by simp) (by simp)⟩

/-- The empty range passes no check. -/
theorem absent_effect_noRange (x : Slot) (s : State) :
    (advance 2 (raise (.deviceAbsent x) s)).alert = true ∧
    OnlyRegs [] s { advance 2 (raise (.deviceAbsent x) s) with alert := s.alert } ∧
    Advanced 2 s (advance 2 (raise (.deviceAbsent x) s)) := by
  have h := absent_effect x 0 s
  rwa [checkRange_of_fits (Nat.le_of_lt s.mp.isLt)] at h

/-! ## The placed word (log entries 6 and 9) -/

theorem placeAddr_fits (s : State) : (placeAddr s).toNat + 2 ≤ 4096 := by
  unfold placeAddr
  split
  · decide
  · have := s.pc.isLt
    have : s.pc.toNat ≠ 4095 := fun h => ‹¬ s.pc = 0xFFF#12› (BitVec.eq_of_toNat_eq h)
    omega

theorem withFetchWord_encode (s : State) (i : Instr) :
    s.withFetchWord 16 (encode i).toNat = placeWord (encode i) s := by
  rw [State.withFetchWord, Nat.mod_eq_of_lt (encode i).isLt, BitVec.ofNat_toNat, BitVec.setWidth_eq]

/-- The two bytes of a placed word join to it where the next cycle fetches. -/
theorem placeWord_fetches (w : Word) {s : State} (hs : s.Inv) :
    joinBytes ((placeWord w s).mem.read (placeWord w s).pc.toNat)
      ((placeWord w s).mem.read ((placeWord w s).pc.toNat + 1)) = w := by
  have hfits := placeAddr_fits s
  have hwf : (s.mem.write (placeAddr s).toNat (hiByte w)).wf Config.memSize = true :=
    Memory.write_wf _ hs.mem (by rw [Config.memSize]; omega)
  have hhi : (placeWord w s).mem.read (placeAddr s).toNat = hiByte w := by
    refine (Memory.read_write_other _ _ _ _ (by omega)).trans ?_
    rw [Memory.read_write _ _ _ hs.mem, if_pos rfl]
  have hlo : (placeWord w s).mem.read ((placeAddr s).toNat + 1) = loByte w :=
    (Memory.read_write _ _ _ hwf).trans (if_pos rfl)
  exact joinBytes_eq (congrArg BitVec.toNat hhi |>.trans (hiByte_toNat w))
    (congrArg BitVec.toNat hlo |>.trans (loByte_toNat w))

end

/-! ## The obligations -/

/-- Settles O28. -/
theorem barResult : Obligations.BarResult := by
  refine fun x nn => ⟨decode_formatI_bar x nn, fun s => ?_⟩
  obtain ⟨t, ht, hvalue, hframe, hpc, hstatus⟩ :=
    finish_writesOnly x (Machine.maskedDraw (Config.draw8 s.draws) nn) { s with draws := s.draws + 1 }
  refine ⟨t, ht, ?_, ?_, hframe.draws, { hframe with draws := rfl }, hpc, hstatus⟩
  · rw [hvalue, maskedDraw_toNat]
  · rw [hvalue, maskedDraw_and_not_mask]

/-- Settles O30. -/
theorem splStoresRegister : Obligations.SplStoresRegister := by
  refine fun x => ⟨decode_formatI_spl x, fun s hs => ⟨fun hfits => ?_, fun htop => ?_⟩⟩
  · obtain ⟨t, ht, hhi, hlo, hframe⟩ := exec_spl_of_fits x hs (Nat.add_le_add_right hfits 2)
    exact ⟨t, ht, hhi ▸ hiByte_toNat _, hlo ▸ loByte_toNat _, hframe⟩
  · obtain ⟨t, ht, hhi, hframe⟩ := exec_spl_at_top x hs htop
    exact ⟨t, ht, hhi ▸ hiByte_toNat _, hframe⟩

/-- Settles O31. -/
theorem ldLoadsRegisters : Obligations.LdLoadsRegisters := by
  refine fun x => ⟨decode_formatI_ld x, fun s => ?_⟩
  obtain ⟨t, ht, hin, hout, hframe⟩ := exec_ld_effect x s
  exact ⟨t, ht, fun k hk hw => (congrArg BitVec.toNat (hin k hk hw)).trans (ldWord_toNat s k), hout, hframe⟩

/-- Settles O32. LD finds at the same `mp` the two bytes that SPL left there. -/
theorem splThenLdRoundTrip : Obligations.SplThenLdRoundTrip := by
  intro x s hs hfits
  obtain ⟨t, ht, hhi, hlo, -, hframe, -⟩ := exec_spl_of_fits x hs (Nat.add_le_add_right hfits 2)
  obtain ⟨u, hu, hin, -⟩ := exec_ld_effect 0 t
  have hmp : t.mp = s.mp := hframe.mp
  refine ⟨t, u, ht, hu, ?_⟩
  rw [hin 0 le_rfl (by rw [hmp]; exact Nat.add_le_add_right hfits 2), Machine.ldWord, hmp]
  exact joinBytes_eq (hhi ▸ hiByte_toNat _) (hlo ▸ loByte_toNat _)

/-- Settles O33. After SPL the machine fetches from where the word was stored. -/
theorem storeIsSeenByNextFetch : Obligations.StoreIsSeenByNextFetch := by
  intro x s t i hs hrun hpc hfits ht hi
  obtain ⟨t', ht', hhi, hlo, -, -, hadv, hstatus⟩ := exec_spl_of_fits x hs (Nat.add_le_add_right hfits 2)
  cases ht.symm.trans ht'
  have hinside : s.pc.toNat + 2 < 4096 := by omega
  have htpc : t.pc.toNat = s.mp.toNat := (hadv hinside).trans hpc
  rw [if_pos hinside, hrun] at hstatus
  have hnotTop : t.pc ≠ 0xFFF := fun h => by
    have : t.pc.toNat = 0xFFF := congrArg BitVec.toNat h
    omega
  refine step_of_decode_ok hstatus hnotTop ?_
  rw [htpc, joinBytes_eq (hhi ▸ hiByte_toNat _) (hlo ▸ loByte_toNat _)]
  exact hi

/-- Settles O34. -/
theorem writeSendsWindow : Obligations.WriteSendsWindow := by
  refine fun x nn => ⟨decode_formatI_write x nn, fun s => ⟨fun d hd => ?present, fun hd => ?absent⟩⟩
  all_goals rw [← Machine.readSlot_checkRange x nn.toNat s] at hd
  case present =>
    refine ⟨_, exec_write x _ s, ?_⟩
    rw [Machine.busWrite_present _ hd]
    exact ⟨by simp, fun k hk => by simp [hk], by simp [Machine.passesTop_eq], onlyRegs_of_fields,
      advanced_advance_of_eq (by decide) (by simp) (by simp)⟩
  case absent =>
    refine ⟨_, exec_write x _ s, ?_⟩
    rw [Machine.busWrite_absent _ hd]
    exact absent_effect x _ s

/-- Settles O35. The contract bounds what the device returns by the count it was asked for. -/
theorem readStoresReply : Obligations.ReadStoresReply := by
  refine fun x nn => ⟨decode_formatI_read x nn, fun s hs => ⟨fun d r hd hr => ?present, fun hd => ?absent⟩⟩
  case present =>
    obtain ⟨m, hexec, hm⟩ := exec_read_present nn.toNat hd
    rw [show Machine.deviceRead d (Machine.window s.mp nn.toNat) = r from hr.symm] at hexec hm
    refine ⟨_, hexec, hr ▸ Machine.deviceRead_length_le d _, hr ▸ Machine.deviceRead_fault_nil d _,
      fun i hi => ?_, fun c hc => ?_, by simp [Machine.readSlot], fun k hk => ?_, by simp [Machine.passesTop_eq],
      onlyRegs_of_fields, advanced_advance_of_eq (by decide) (by simp) (by simp)⟩
    · rw [Machine.advance_mem]; exact hm.inside hs.mem i hi
    · rw [Machine.advance_mem]; exact hm.outside c hc
    · rw [Machine.readSlot_advance]
      exact (Machine.readSlot_settle k x r _).trans (by rw [if_neg hk, Machine.readSlot_checkRange])
  case absent => exact ⟨_, exec_read_absent _ hd, absent_effect x _ s⟩

/-- Settles O36. -/
theorem dpsSetsDevicePointer : Obligations.DpsSetsDevicePointer := by
  refine fun x => ⟨decode_formatI_dps x, fun s => ⟨fun d hd => ?present, fun hd => ?absent⟩⟩
  case present =>
    refine ⟨_, exec_dps x s, ?_⟩
    rw [Machine.busSetPointer_present _ hd]
    exact ⟨by simp, fun k hk => by simp [hk], by simp, onlyRegs_of_fields,
      advanced_advance_of_eq (by decide) (by simp) (by simp)⟩
  case absent =>
    refine ⟨_, exec_dps x s, ?_⟩
    rw [Machine.busSetPointer_absent _ hd]
    exact absent_effect_noRange x s

/-- Settles O37. -/
theorem dpgReadsDevicePointer : Obligations.DpgReadsDevicePointer := by
  refine fun x => ⟨decode_formatI_dpg x, fun s => ⟨fun d hd => ?present, fun hd => ?absent⟩⟩
  case present =>
    refine ⟨_, exec_dpg_present hd, ?_, by simp, fun k hk => by simp [hk], by simp, ?_,
      advanced_advance_of_eq (by decide) (by simp) (by simp)⟩
    · rw [Machine.readReg_advance, Machine.readReg_writeReg]
      exact if_pos rfl
    · exact {
        regs := fun r hr =>
          have hne : r ≠ Machine.flagReg := mt List.mem_singleton.2 hr
          (Machine.readReg_advance r 2 _).trans
            ((Machine.readReg_writeReg r _ _ _).trans ((if_neg hne).trans (Machine.readReg_settle r x _ s)))
        mp := by simp
        alert := rfl
        stack := by simp
        mem := fun a => by simp
        dev := fun k => rfl
        draws := by simp }
  case absent => exact ⟨_, exec_dpg_absent hd, absent_effect_noRange x s⟩

/-- Settles O60. -/
theorem placedWordRunsNext : Obligations.PlacedWordRunsNext := by
  intro s i hs hwf
  rw [withFetchWord_encode]
  have hfits : (Machine.placeWord (encode i) s).pc.toNat + 2 ≤ 4096 := placeAddr_fits s
  have hnotTop : (Machine.placeWord (encode i) s).pc ≠ 0xFFF := fun h => by
    rw [h] at hfits
    exact absurd hfits (by decide)
  refine step_of_decode_ok rfl hnotTop ?_
  rw [placeWord_fetches (encode i) hs, decodeOfEncode i hwf]

end Sys2Proof.Proofs

/-! SUPPORT. The memories of mem_ext and rom, reset, and the terminal status (spec 46_standard_devices.md R147
to R154; 70_reset_and_hazards.md R190, R195, R198): a device pointer as a number, a store by its bytes, and from
these obligations O43 to O45, O47 to O49 and O59. -/

namespace Sys2Proof.Proofs

section
open Sys2Proof.Machine

/-! ## A device pointer (R147) -/

theorem ptr_add_ofNat (ptr : Word) (n : Nat) : ptr + BitVec.ofNat 16 n = BitVec.ofNat 16 (ptr.toNat + n) := by
  rw [BitVec.ofNat_add, BitVec.ofNat_toNat, BitVec.setWidth_eq]

theorem ptr_succ_toNat (ptr : Word) : (ptr + 1).toNat = (ptr.toNat + 1) % 65536 := BitVec.toNat_add ptr 1

/-- Stepping the pointer and counting one less is the same place. -/
theorem ptr_succ_wrap (ptr : Word) (i : Nat) : ((ptr + 1).toNat + i) % 65536 = (ptr.toNat + (i + 1)) % 65536 := by
  rw [ptr_succ_toNat]
  omega

/-! ## Reading (R149, R152) -/

theorem deviceBytes_eq_map (mem : Memory) : ∀ (ptr : Word) (n : Nat),
    deviceBytes mem ptr n = (List.range n).map (fun i => mem.read ((ptr.toNat + i) % 65536))
  | _, 0 => rfl
  | ptr, n + 1 => by
    rw [deviceBytes, deviceBytes_eq_map mem (ptr + 1) n, List.range_succ_eq_map, List.map_cons, List.map_map,
      Nat.add_zero, Nat.mod_eq_of_lt ptr.isLt]
    exact congrArg _ (List.map_congr_left fun i _ => congrArg mem.read (ptr_succ_wrap ptr i))

/-! ## Writing (R148) -/

/-- One byte at the pointer, and the pointer past it: a turn of `memExtStore`. -/
def putByte (b : Byte) (m : MemExt) : MemExt := { mem := m.mem.write m.ptr.toNat b, ptr := m.ptr + 1 }

theorem memExtStore_cons (b : Byte) (bs : List Byte) (m : MemExt) :
    memExtStore (b :: bs) m = memExtStore bs (putByte b m) := rfl

theorem putByte_ptr (b : Byte) (m : MemExt) : (putByte b m).ptr = m.ptr + 1 := rfl

theorem putByte_mem (b : Byte) (m : MemExt) : (putByte b m).mem = m.mem.write m.ptr.toNat b := rfl

/-- The other bytes: a store reaches only the addresses of its range. -/
theorem memExtStore_read_outside {a : Nat} : ∀ (bs : List Byte) (m : MemExt),
    (∀ i, i < bs.length → a ≠ (m.ptr.toNat + i) % 65536) → (memExtStore bs m).mem.read a = m.mem.read a
  | [], _, _ => rfl
  | b :: bs, m, ha => by
    have hfirst : a ≠ m.ptr.toNat := by
      have h := ha 0 (Nat.succ_pos _)
      rwa [Nat.add_zero, Nat.mod_eq_of_lt m.ptr.isLt] at h
    have hrest : ∀ i, i < bs.length → a ≠ ((putByte b m).ptr.toNat + i) % 65536 := fun i hi => by
      rw [putByte_ptr, ptr_succ_wrap]
      exact ha (i + 1) (Nat.succ_lt_succ hi)
    rw [memExtStore_cons, memExtStore_read_outside bs (putByte b m) hrest, putByte_mem]
    exact Memory.read_write_other _ _ _ _ hfirst

/-- The bytes of the range: no later byte lands on an earlier one, since the range is no longer than the memory. -/
theorem memExtStore_read_inside : ∀ (bs : List Byte) (m : MemExt), m.mem.wf 65536 = true → bs.length ≤ 65536 →
    ∀ i, i < bs.length → (memExtStore bs m).mem.read ((m.ptr.toNat + i) % 65536) = bs.getD i 0
  | b :: bs, m, hwf, hlen, 0, _ => by
    rw [List.length_cons] at hlen
    have hlt := m.ptr.isLt
    have hfirst : ∀ i, i < bs.length → m.ptr.toNat ≠ ((putByte b m).ptr.toNat + i) % 65536 := fun i hi => by
      rw [putByte_ptr, ptr_succ_wrap]
      omega
    rw [Nat.add_zero, Nat.mod_eq_of_lt hlt, memExtStore_cons, memExtStore_read_outside bs (putByte b m) hfirst,
      putByte_mem]
    exact (Memory.read_write _ _ _ hwf).trans (if_pos rfl)
  | b :: bs, m, hwf, hlen, i + 1, hi => by
    have hwf' : (putByte b m).mem.wf 65536 = true := Memory.write_wf b hwf m.ptr.isLt
    rw [memExtStore_cons, ← ptr_succ_wrap, ← putByte_ptr b, List.getD_cons_succ]
    exact memExtStore_read_inside bs (putByte b m) hwf' (Nat.le_of_succ_le hlen) i (Nat.lt_of_succ_lt_succ hi)

/-! ## Reset (R190, R195) -/

theorem resetDevice_wf {p : ResetParams} (h : (p.romImage.getD []).length ≤ 65536) (kind : DeviceKind) :
    (resetDevice p kind).wf = true := by
  cases kind with
  | console | memExt | fpArith | user => rfl
  | rom =>
    cases hrom : p.romImage with
    | none => rw [resetDevice, hrom]; rfl
    | some image =>
      rw [hrom] at h
      rw [resetDevice, hrom]
      exact Memory.ofBytes_wf h

/-- The state that `resetWith` builds when it does not refuse. -/
def resetState (p : ResetParams) : State where
  regs := p.regInit
  pc := 0x000
  mp := Config.mpReset
  alert := false
  status := .running
  stack := []
  mem := Memory.ofBytes 0 p.image
  dev := Vector.ofFn (fun k : Fin 16 => (p.deviceMap[k.val]).map (resetDevice p))
  draws := 0

theorem resetWith_of_fits {p : ResetParams} (himage : p.image.length ≤ 4096)
    (hrom : (p.romImage.getD []).length ≤ 65536) : resetWith p = .ok (resetState p) := by
  have hshort : ¬ Config.memSize < p.image.length := Nat.not_lt.2 himage
  have hromShort : ¬ Config.deviceMemSize < romLength p := Nat.not_lt.2 hrom
  rw [resetWith, if_neg hshort, if_neg hromShort]
  rfl

theorem resetWith_of_not_fits {p : ResetParams}
    (h : ¬ (p.image.length ≤ 4096 ∧ (p.romImage.getD []).length ≤ 65536)) :
    ∃ e, resetWith p = .error e := by
  by_cases himage : p.image.length ≤ 4096
  · have hshort : ¬ Config.memSize < p.image.length := Nat.not_lt.2 himage
    have hromLong : Config.deviceMemSize < romLength p := Nat.lt_of_not_le fun hrom => h ⟨himage, hrom⟩
    rw [resetWith, if_neg hshort, if_pos hromLong]
    exact ⟨_, rfl⟩
  · have hlong : Config.memSize < p.image.length := Nat.lt_of_not_le himage
    rw [resetWith, if_pos hlong]
    exact ⟨_, rfl⟩

theorem resetState_slot (p : ResetParams) (k : Slot) :
    readSlot k (resetState p) = (p.deviceMap[k.val]).map (resetDevice p) :=
  Vector.getElem_ofFn k.isLt

theorem resetState_inv {p : ResetParams} (himage : p.image.length ≤ 4096)
    (hrom : (p.romImage.getD []).length ≤ 65536) : (resetState p).Inv where
  mem := Memory.ofBytes_wf himage
  stack := Nat.zero_le _
  dev k d hd := by
    rw [resetState_slot] at hd
    obtain ⟨kind, -, rfl⟩ := Option.map_eq_some_iff.1 hd
    exact resetDevice_wf hrom kind

theorem read_image (image : List Byte) (a : Nat) : (Memory.ofBytes 0 image).read a = image.getD a 0x00 :=
  (Memory.read_ofBytes 0 image a).trans (if_pos (Nat.zero_le a))

end

/-! ## The obligations -/

/-- Settles O43. A list of at most 255 bytes is shorter than the memory. -/
theorem memExtWriteCopies : Obligations.MemExtWriteCopies := by
  intro m bs hwf hlen
  refine ⟨rfl, ?pointer, memExtStore_read_inside bs m hwf (by omega),
    fun a ha => memExtStore_read_outside bs m ha⟩
  case pointer =>
    rw [Machine.memExtWrite, Machine.memExtStore_ptr, ptr_add_ofNat, BitVec.toNat_ofNat]

/-- Settles O44. -/
theorem memExtReadAndPointer : Obligations.MemExtReadAndPointer := by
  refine fun m n v => ⟨?_, rfl, rfl⟩
  rw [Machine.memExtRead, ptr_add_ofNat, deviceBytes_eq_map]

/-- Settles O45. -/
theorem romIsReadOnly : Obligations.RomIsReadOnly := by
  refine fun r n v bs => ⟨fun h => ?_, fun h => ?_, rfl, rfl, rfl⟩
  · rw [Machine.romRead, if_pos h, ptr_add_ofNat, deviceBytes_eq_map]
  · rw [Machine.romRead, if_neg (by rw [h]; decide)]

/-- Settles O48. -/
theorem resetFollowsParameters : Obligations.ResetFollowsParameters := by
  refine fun p => ⟨fun ⟨himage, hrom⟩ => ?_, resetWith_of_not_fits⟩
  exact ⟨_, resetWith_of_fits himage hrom, rfl, rfl, rfl, rfl, rfl, rfl, read_image p.image, resetState_slot p,
    resetState_inv himage hrom⟩

/-- Settles O47. `State.reset` is the reset with the default parameters. -/
theorem resetSatisfiesInvariant : Obligations.ResetSatisfiesInvariant := by
  have himage : Machine.ResetParams.default.image.length ≤ 4096 := by decide
  have hrom : (Machine.ResetParams.default.romImage.getD []).length ≤ 65536 := by decide
  have hreset : Machine.State.reset = resetState Machine.ResetParams.default :=
    Except.ok.inj (Machine.resetWith_default.symm.trans (resetWith_of_fits himage hrom))
  rw [Obligations.ResetSatisfiesInvariant, hreset]
  exact resetState_inv himage hrom

/-- Settles O49. -/
theorem devicesAtReset : Obligations.DevicesAtReset := by
  refine fun p => ⟨rfl, rfl, fun hnone => ?_, fun image hsome => ?_⟩
  · rw [Machine.resetDevice, hnone]; rfl
  · rw [Machine.resetDevice, hsome]; exact ⟨_, rfl, read_image image⟩

/-- Settles O59. -/
theorem terminalStatusTable : Obligations.TerminalStatusTable := by
  intro s
  refine ⟨fun hrun => ?_, fun hhalt halert => ?_, fun hhalt halert => ?_, fun hend => ?_⟩
  · rw [Machine.terminalStatus, hrun]
  · rw [Machine.exitsWithZero, Machine.terminalStatus, hhalt, halert]; exact ⟨rfl, rfl⟩
  · rw [Machine.exitsWithZero, Machine.terminalStatus, hhalt, halert]; exact ⟨rfl, rfl⟩
  · rw [Machine.exitsWithZero, Machine.terminalStatus, hend]; exact ⟨rfl, rfl⟩

end Sys2Proof.Proofs

/-! SUPPORT. The console's text (spec 46_standard_devices.md R141 to R143): digit characters as numbers, what the
console prints, what it reads, and that the two fit together; from these obligations O38 to O41. -/

namespace Sys2Proof.Proofs

section
open Sys2Proof.Machine

/-! ## Digit characters -/

theorem toNat_mem_map_iff (c : Char) (l : List Char) : c.toNat ∈ l.map Char.toNat ↔ c ∈ l :=
  List.mem_map_of_injective fun _ _ => Char.toNat_inj.1

theorem isDigitOf_zero_iff (c : Char) : isDigitOf 0 c ↔ 48 ≤ c.toNat ∧ c.toNat ≤ 57 := by
  have hcodes : "0123456789".toList.map Char.toNat = List.range' 48 10 := by decide
  rw [isDigitOf, if_pos rfl, ← toNat_mem_map_iff, hcodes, List.mem_range'_1]
  omega

theorem isDigitOf_one_iff (c : Char) : isDigitOf 1 c ↔
    (48 ≤ c.toNat ∧ c.toNat ≤ 57) ∨ (97 ≤ c.toNat ∧ c.toNat ≤ 102) ∨ (65 ≤ c.toNat ∧ c.toNat ≤ 70) := by
  have hcodes : "0123456789abcdefABCDEF".toList.map Char.toNat =
      List.range' 48 10 ++ (List.range' 97 6 ++ List.range' 65 6) := by decide
  rw [isDigitOf, if_neg (by decide), ← toNat_mem_map_iff, hcodes, List.mem_append, List.mem_append,
    List.mem_range'_1, List.mem_range'_1, List.mem_range'_1]
  omega

/-- The base of a format code. -/
def baseOf (fmt : BitVec 1) : Nat := if fmt = 0 then 10 else 16

theorem consoleBase_eq_baseOf (c : Console) : consoleBase c = baseOf c.fmt := rfl

/-- The two format codes, in the spelling of the statements. -/
theorem format_eq_zero_or_one (fmt : BitVec 1) : fmt = 0 ∨ fmt = 1 := BitVec.eq_zero_or_eq_one fmt

theorem digitValue_of_isDigitOf {fmt : BitVec 1} {c : Char} (h : isDigitOf fmt c) :
    digitValue (baseOf fmt) c = some (digitNat c) := by
  rcases format_eq_zero_or_one fmt with rfl | rfl
  · rw [isDigitOf_zero_iff] at h
    simp only [digitValue, digitNat, if_pos h, if_pos (show c.toNat < 58 by omega)]
  · rw [isDigitOf_one_iff] at h
    have hbase : baseOf 1 = 16 := rfl
    simp only [digitValue, digitNat, hbase, true_and]
    rcases h with h | h | h
    · rw [if_pos h, if_pos (by omega)]
    · rw [if_neg (by omega), if_pos h, if_neg (by omega), if_neg (by omega)]
    · rw [if_neg (by omega), if_neg (by omega), if_pos h, if_neg (by omega), if_pos (by omega)]

theorem digitValue_of_not_isDigitOf {fmt : BitVec 1} {c : Char} (h : ¬ isDigitOf fmt c) :
    digitValue (baseOf fmt) c = none := by
  rcases format_eq_zero_or_one fmt with rfl | rfl
  · rw [isDigitOf_zero_iff] at h
    have hbase : baseOf 0 = 10 := rfl
    simp only [digitValue, hbase]
    rw [if_neg h, if_neg (by omega), if_neg (by omega)]
  · rw [isDigitOf_one_iff] at h
    have hbase : baseOf 1 = 16 := rfl
    simp only [digitValue, hbase, true_and]
    rw [if_neg (by omega), if_neg (by omega), if_neg (by omega)]

/-! The digits the console prints, below 16: finitely many characters. -/

theorem isDigitOf_zero_digitChar {d : Nat} (h : d < 10) : isDigitOf 0 (digitChar d) := by
  rw [isDigitOf_zero_iff]
  interval_cases d <;> decide

theorem isDigitOf_one_digitChar {d : Nat} (h : d < 16) : isDigitOf 1 (digitChar d) := by
  rw [isDigitOf_one_iff]
  interval_cases d <;> decide

theorem digitNat_digitChar {d : Nat} (h : d < 16) : digitNat (digitChar d) = d := by
  interval_cases d <;> decide

theorem digitChar_eq_getD {d : Nat} (h : d < 16) : digitChar d = "0123456789ABCDEF".toList.getD d ' ' := by
  interval_cases d <;> decide

theorem digitChar_ne_zero {d : Nat} (h : d < 10) (hpos : 0 < d) : digitChar d ≠ '0' := by
  interval_cases d <;> decide

/-! ## Byte lists as numbers -/

theorem byte_pair_lt {a r n : Nat} (ha : a < 256) (hr : r < 256 ^ n) : a * 256 ^ n + r < 256 ^ (n + 1) := by
  calc a * 256 ^ n + r < a * 256 ^ n + 256 ^ n := Nat.add_lt_add_left hr _
    _ = (a + 1) * 256 ^ n := (Nat.succ_mul a _).symm
    _ ≤ 256 * 256 ^ n := Nat.mul_le_mul_right _ ha
    _ = 256 ^ (n + 1) := (Nat.pow_succ').symm

theorem bigEndian_lt : ∀ bs : List Byte, bigEndian bs < 256 ^ bs.length
  | [] => Nat.one_pos
  | b :: bs => byte_pair_lt b.isLt (bigEndian_lt bs)

/-- Lists of one length with one value are equal. -/
theorem bigEndian_inj : ∀ {xs ys : List Byte}, xs.length = ys.length → bigEndian xs = bigEndian ys → xs = ys
  | [], [], _, _ => rfl
  | x :: xs, y :: ys, hlen, hval => by
    have hlen' : xs.length = ys.length := Nat.succ.inj hlen
    have hx := bigEndian_lt xs
    have hy := bigEndian_lt ys
    rw [bigEndian, bigEndian, hlen'] at hval
    rw [hlen'] at hx
    have hpos : 0 < 256 ^ ys.length := Nat.pow_pos (by decide)
    have htail : bigEndian xs = bigEndian ys := by
      have hmod := congrArg (· % 256 ^ ys.length) hval
      simpa only [Nat.mul_add_mod', Nat.mod_eq_of_lt hx, Nat.mod_eq_of_lt hy] using hmod
    rw [htail] at hval
    have hhead : x.toNat = y.toNat := Nat.eq_of_mul_eq_mul_right hpos (Nat.add_right_cancel hval)
    rw [BitVec.eq_of_toNat_eq hhead, bigEndian_inj hlen' htail]

theorem bigEndian_natToBytes : ∀ n v : Nat, bigEndian (natToBytes n v) = v % 256 ^ n
  | 0, v => (Nat.mod_one v).symm
  | n + 1, v => by
    have hpow : v % 256 ^ (n + 1) = v % 256 ^ n + 256 ^ n * (v / 256 ^ n % 256) := Nat.mod_pow_succ
    rw [natToBytes, bigEndian, natToBytes_length, bigEndian_natToBytes n v, BitVec.toNat_ofNat, hpow, Nat.mul_comm,
      Nat.add_comm]

theorem natToBytes_bigEndian (bs : List Byte) : natToBytes bs.length (bigEndian bs) = bs :=
  bigEndian_inj (natToBytes_length _ _)
    ((bigEndian_natToBytes _ _).trans (Nat.mod_eq_of_lt (bigEndian_lt bs)))

/-! ## Decimal text (R141) -/

theorem textValue_append_digit (base : Nat) (t : List Char) (c : Char) :
    textValue base (t ++ [c]) = textValue base t * base + digitNat c := by
  rw [textValue, List.foldl_append]; rfl

/-- What the console prints of a number: the number, in digits, with no zero in front. -/
structure DecimalOf (v : Nat) (t : List Char) : Prop where
  nonempty : t ≠ []
  digits : ∀ c ∈ t, isDigitOf 0 c
  value : textValue 10 t = v
  head : 0 < v → t.head? ≠ some '0'

theorem decimalOf_digitChar {v : Nat} (h : v < 10) : DecimalOf v [digitChar v] where
  nonempty := List.cons_ne_nil _ _
  digits c hc := by rw [List.mem_singleton.1 hc]; exact isDigitOf_zero_digitChar h
  value := (Nat.zero_add _).trans (digitNat_digitChar (by omega))
  head hpos := fun hc => digitChar_ne_zero h hpos (Option.some.inj hc)

/-- One more digit behind a number that is not 0. -/
theorem DecimalOf.append {v : Nat} {t : List Char} (h : DecimalOf (v / 10) t) (hv : 10 ≤ v) :
    DecimalOf v (t ++ [digitChar (v % 10)]) where
  nonempty := List.append_ne_nil_of_left_ne_nil h.nonempty _
  digits c hc := by
    rcases List.mem_append.1 hc with hc | hc
    · exact h.digits c hc
    · rw [List.mem_singleton.1 hc]; exact isDigitOf_zero_digitChar (by omega)
  value := by
    rw [textValue_append_digit, h.value, digitNat_digitChar (by omega)]
    omega
  head _ := by
    rw [List.head?_append_of_ne_nil t h.nonempty]
    exact h.head (by omega)

theorem decimalOf_decimalDigits : ∀ {k v : Nat}, v < 10 ^ k → 0 < k → DecimalOf v (decimalDigits k v)
  | k + 1, v, hv, _ => by
    unfold decimalDigits
    split
    · exact decimalOf_digitChar ‹_›
    · have hdiv : v / 10 < 10 ^ k := Nat.div_lt_of_lt_mul (by rwa [Nat.pow_succ'] at hv)
      have hk : 0 < k := by
        rcases k with _ | k
        · rw [Nat.pow_zero] at hdiv; omega
        · exact Nat.succ_pos k
      exact (decimalOf_decimalDigits hdiv hk).append (by omega)

/-- Three digits for each byte are enough. -/
theorem decimalOf_decimalText (bs : List Byte) : DecimalOf (bigEndian bs) (decimalText bs) := by
  rw [decimalText, bytesToNat_eq_bigEndian]
  refine decimalOf_decimalDigits ?_ (Nat.succ_pos _)
  calc bigEndian bs < 256 ^ bs.length := bigEndian_lt bs
    _ ≤ 1000 ^ bs.length := Nat.pow_le_pow_left (by decide) _
    _ = 10 ^ (3 * bs.length) := by rw [Nat.pow_mul]
    _ ≤ 10 ^ (3 * bs.length + 1) := Nat.pow_le_pow_right (by decide) (Nat.le_succ _)

/-- Only 0 begins with the digit 0. -/
theorem DecimalOf.eq_zero_digit {bs : List Byte} (h : (decimalText bs).head? = some '0') :
    decimalText bs = ['0'] := by
  have hzero : bigEndian bs = 0 := Nat.eq_zero_of_not_pos fun hpos => (decimalOf_decimalText bs).head hpos h
  rw [decimalText, bytesToNat_eq_bigEndian, hzero, decimalDigits]
  rfl

/-! ## Hexadecimal text (R142) -/

theorem nibbles_lt (b : Byte) : b.toNat / 16 < 16 ∧ b.toNat % 16 < 16 := by
  have := b.isLt
  omega

theorem hexText_eq (bs : List Byte) : hexText bs = bs.flatMap (fun b =>
    ["0123456789ABCDEF".toList.getD (b.toNat / 16) ' ', "0123456789ABCDEF".toList.getD (b.toNat % 16) ' ']) := by
  unfold hexText
  congr 1
  funext b
  rw [digitChar_eq_getD (nibbles_lt b).1, digitChar_eq_getD (nibbles_lt b).2]

theorem hexText_digits {bs : List Byte} : ∀ c ∈ hexText bs, isDigitOf 1 c := by
  intro c hc
  obtain ⟨b, -, hcb⟩ := List.mem_flatMap.1 hc
  rcases List.mem_cons.1 hcb with rfl | hcb
  · exact isDigitOf_one_digitChar (nibbles_lt b).1
  · rw [List.mem_singleton.1 hcb]; exact isDigitOf_one_digitChar (nibbles_lt b).2

/-- Two digits in base 16 are one in base 256, at every place. -/
theorem hexText_value (bs : List Byte) : textValue 16 (hexText bs) = bigEndian bs := by
  have hstep : ∀ (v : Nat) (b : Byte),
      [digitChar (b.toNat / 16), digitChar (b.toNat % 16)].foldl (fun v c => v * 16 + digitNat c) v =
        v * 256 + b.toNat := by
    intro v b
    rw [List.foldl_cons, List.foldl_cons, List.foldl_nil, digitNat_digitChar (nibbles_lt b).1,
      digitNat_digitChar (nibbles_lt b).2]
    omega
  rw [textValue, hexText, List.foldl_flatMap]
  simp only [hstep]
  exact bytesToNat_eq_bigEndian bs

/-! ## Tokens (R143) -/

theorem isBlank_iff_isWhite (c : Char) : isBlank c = true ↔ isWhite c := by
  simp only [isBlank, isWhite, Bool.or_eq_true, beq_iff_eq, Bool.and_eq_true, decide_eq_true_eq, List.mem_cons,
    List.not_mem_nil, or_false]
  omega

theorem dropWhile_isBlank_append {l : List Char} (hl : ∀ c ∈ l, isWhite c) (t : List Char) :
    (l ++ t).dropWhile isBlank = t.dropWhile isBlank :=
  List.dropWhile_append_of_pos fun c hc => (isBlank_iff_isWhite c).2 (hl c hc)

theorem dropWhile_isBlank_of_head {t : List Char} (h : ∀ c, t.head? = some c → ¬ isWhite c) :
    t.dropWhile isBlank = t := by
  cases t with
  | nil => rfl
  | cons c cs => exact List.dropWhile_cons_of_neg (mt (isBlank_iff_isWhite c).1 (h c rfl))

/-- What stands between the white space at the ends of a line is its token. -/
theorem token_of_trimmed {l t r : List Char} (hwhite : ∀ c ∈ l ++ r, isWhite c) (ht : isTrimmed t) :
    token (l ++ t ++ r) = t := by
  have hl : ∀ c ∈ l, isWhite c := fun c hc => hwhite c (List.mem_append_left r hc)
  have hr : ∀ c ∈ r, isWhite c := fun c hc => hwhite c (List.mem_append_right l hc)
  have hback : (t ++ r).reverse.dropWhile isBlank = t.reverse := by
    rw [List.reverse_append, dropWhile_isBlank_append fun c hc => hr c (List.mem_reverse.1 hc)]
    exact dropWhile_isBlank_of_head fun c hc => ht c (.inr (List.head?_reverse.symm.trans hc))
  have hfront : (t ++ r).dropWhile isBlank = if t = [] then [] else t ++ r := by
    split
    · subst t
      exact List.dropWhile_eq_nil_iff.2 fun c hc => (isBlank_iff_isWhite c).2 (hr c hc)
    · refine dropWhile_isBlank_of_head fun c hc => ht c (.inl ?_)
      rwa [List.head?_append_of_ne_nil t ‹_›] at hc
  rw [token, List.append_assoc, dropWhile_isBlank_append hl, hfront]
  split
  · subst t; rfl
  · rw [hback, List.reverse_reverse]

/-- A digit is no white space, so a text of digits is its own token. -/
theorem not_isWhite_of_isDigitOf {fmt : BitVec 1} {c : Char} (h : isDigitOf fmt c) : ¬ isWhite c := by
  have hcode : 48 ≤ c.toNat := by
    rcases format_eq_zero_or_one fmt with rfl | rfl
    · exact ((isDigitOf_zero_iff c).1 h).1
    · have := (isDigitOf_one_iff c).1 h; omega
  simp only [isWhite, List.mem_cons, List.not_mem_nil, or_false]
  omega

theorem token_of_digits {fmt : BitVec 1} {t : List Char} (h : ∀ c ∈ t, isDigitOf fmt c) : token t = t := by
  have htrim : isTrimmed t := by
    rintro c (hc | hc)
    · exact not_isWhite_of_isDigitOf (h c (List.mem_of_head? hc))
    · exact not_isWhite_of_isDigitOf (h c (List.mem_of_getLast? hc))
  have htoken : token ([] ++ t ++ []) = t := token_of_trimmed (fun _ hc => absurd hc List.not_mem_nil) htrim
  rwa [List.nil_append, List.append_nil] at htoken

/-! ## Parsing (R143) -/

theorem parseDigits_of_digits {fmt : BitVec 1} : ∀ {t : List Char} (v : Nat), (∀ c ∈ t, isDigitOf fmt c) →
    parseDigits (baseOf fmt) v t = some (t.foldl (fun v c => v * baseOf fmt + digitNat c) v)
  | [], _, _ => rfl
  | c :: t, v, h => by
    rw [parseDigits, digitValue_of_isDigitOf (h c List.mem_cons_self)]
    exact parseDigits_of_digits _ fun d hd => h d (List.mem_cons_of_mem c hd)

theorem parseDigits_of_not_digits {fmt : BitVec 1} : ∀ {t : List Char} (v : Nat), ¬ (∀ c ∈ t, isDigitOf fmt c) →
    parseDigits (baseOf fmt) v t = none
  | [], _, h => absurd (fun _ hc => absurd hc List.not_mem_nil) h
  | c :: t, v, h => by
    by_cases hc : isDigitOf fmt c
    · rw [parseDigits, digitValue_of_isDigitOf hc]
      exact parseDigits_of_not_digits _ fun ht => h (List.forall_mem_cons.2 ⟨hc, ht⟩)
    · rw [parseDigits, digitValue_of_not_isDigitOf hc]

theorem parseToken_of_digits {fmt : BitVec 1} {t : List Char} (hne : t ≠ []) (h : ∀ c ∈ t, isDigitOf fmt c) :
    parseToken (baseOf fmt) t = some (textValue (baseOf fmt) t) := by
  rw [parseToken, if_neg hne, parseDigits_of_digits 0 h, textValue]

theorem parseToken_of_not_digits {fmt : BitVec 1} {t : List Char} (h : ¬ (t ≠ [] ∧ ∀ c ∈ t, isDigitOf fmt c)) :
    parseToken (baseOf fmt) t = none := by
  unfold parseToken
  split
  · rfl
  · exact parseDigits_of_not_digits 0 fun hdigits => h ⟨‹_›, hdigits⟩

/-! ## The console (R141 to R143) -/

theorem consoleRead_of_no_line {c : Console} (n : Nat) (h : c.input = []) : consoleRead c n = ⟨c, [], true⟩ := by
  rw [consoleRead, h]

theorem consoleRead_of_digits {c : Console} {line : List Char} {rest : List (List Char)} (n : Nat)
    (hinput : c.input = line :: rest) (hne : token line ≠ []) (hdigits : ∀ ch ∈ token line, isDigitOf c.fmt ch) :
    consoleRead c n =
      ⟨{ c with input := rest }, natToBytes n (textValue (baseOf c.fmt) (token line)), false⟩ := by
  simp only [consoleRead, hinput, consoleBase_eq_baseOf, parseToken_of_digits hne hdigits]

theorem consoleRead_of_not_digits {c : Console} {line : List Char} {rest : List (List Char)} (n : Nat)
    (hinput : c.input = line :: rest) (h : ¬ (token line ≠ [] ∧ ∀ ch ∈ token line, isDigitOf c.fmt ch)) :
    consoleRead c n = ⟨{ c with input := rest }, [], true⟩ := by
  simp only [consoleRead, hinput, consoleBase_eq_baseOf, parseToken_of_not_digits h]

/-- A line that is a text of digits is read as its value. -/
theorem consoleRead_of_text {c : Console} {text : List Char} {rest : List (List Char)} {bs : List Byte}
    (hinput : c.input = text :: rest) (hne : text ≠ []) (hdigits : ∀ ch ∈ text, isDigitOf c.fmt ch)
    (hvalue : textValue (baseOf c.fmt) text = bigEndian bs) :
    consoleRead c bs.length = ⟨{ c with input := rest }, bs, false⟩ := by
  have htoken := token_of_digits hdigits
  rw [← htoken] at hne hdigits
  rw [consoleRead_of_digits _ hinput hne hdigits, htoken, hvalue, natToBytes_bigEndian]

theorem consoleWrite_output_decimal {c : Console} (h : c.fmt = 0) (bs : List Byte) :
    (consoleWrite c bs).state = { c with output := c.output ++ decimalText bs } := by
  rw [consoleWrite, if_pos (show c.fmt = 0#1 from h)]

theorem consoleWrite_output_hexadecimal {c : Console} (h : c.fmt = 1) (bs : List Byte) :
    (consoleWrite c bs).state = { c with output := c.output ++ hexText bs } := by
  rw [consoleWrite, if_neg (by rw [h]; decide)]

end

/-! ## The obligations -/

/-- Settles O38. -/
theorem consolePrintsDecimal : Obligations.ConsolePrintsDecimal := by
  intro c bs hfmt
  obtain ⟨hne, hdigits, hvalue, -⟩ := decimalOf_decimalText bs
  exact ⟨_, consoleWrite_output_decimal hfmt bs, rfl, hne, hdigits, hvalue, DecimalOf.eq_zero_digit⟩

/-- Settles O39. -/
theorem consolePrintsHexadecimal : Obligations.ConsolePrintsHexadecimal := by
  refine fun c bs hfmt => ⟨?_, rfl⟩
  rw [consoleWrite_output_hexadecimal hfmt, hexText_eq]

/-- Settles O40. -/
theorem consoleReadParsesToken : Obligations.ConsoleReadParsesToken := by
  refine fun c n => ⟨consoleRead_of_no_line n, fun line rest hinput => ⟨fun ⟨hne, hdigits⟩ => ?_,
    consoleRead_of_not_digits n hinput⟩, fun l t r hwhite ht => token_of_trimmed hwhite ht⟩
  rw [consoleRead_of_digits n hinput hne hdigits]
  exact ⟨rfl, rfl, Machine.natToBytes_length _ _, bigEndian_natToBytes _ _⟩

/-- Settles O41. The text printed is not empty and of digits alone, and its value is that of the bytes. -/
theorem consoleReadsBackItsText : Obligations.ConsoleReadsBackItsText := by
  intro c bs text rest houtput hcase
  rcases format_eq_zero_or_one c.fmt with hfmt | hfmt
  · rw [consoleWrite_output_decimal hfmt] at houtput
    obtain rfl := List.append_cancel_left houtput
    obtain ⟨hne, hdigits, hvalue, -⟩ := decimalOf_decimalText bs
    exact consoleRead_of_text rfl hne (hfmt ▸ hdigits) (hfmt ▸ hvalue)
  · rw [consoleWrite_output_hexadecimal hfmt] at houtput
    obtain rfl := List.append_cancel_left houtput
    have hbs : bs ≠ [] := hcase.resolve_left (by rw [hfmt]; decide)
    have hne : Machine.hexText bs ≠ [] := by
      obtain ⟨b, bs', rfl⟩ := List.exists_cons_of_ne_nil hbs
      exact List.cons_ne_nil _ _
    exact consoleRead_of_text rfl hne (hfmt ▸ hexText_digits) (hfmt ▸ hexText_value bs)

end Sys2Proof.Proofs
